-- ==== Sys2Proof/Word.lean ====
section
/-! DEFINITION. The machine's word types (spec 00_scope.md section 6, 10_state.md R10 to R15). -/

namespace Sys2Proof

/-- A byte of memory or a general register: 8 bits, unsigned (R10, R40). -/
abbrev Byte := BitVec 8

/-- The stored width of `pc`, `I`, a stack entry and an instruction word: 16 bits (R12, R13, R14, R62). -/
abbrev Word := BitVec 16

/-- A 4-bit field of an instruction word (R61). -/
abbrev Nibble := BitVec 4

/-- The 12-bit address field `nnn` (R61). -/
abbrev Addr := BitVec 12

/-- The number of a general register, `V0` to `VF` (R10). -/
abbrev Reg := Fin 16

/-- The number of a key, 0 to F (R23). -/
abbrev Key := Fin 16

end Sys2Proof
end

