-- ==== Sys2Proof/Config.lean ====
section
/-! DEFINITION. The sizes the spec fixes (R2), the types of its open parameters, and the one value it leaves free.
The values the model gives the open parameters stand in Machine/Parameters.lean. -/

namespace Sys2Proof

/-- MEM_SIZE: bytes of memory; an address is valid exactly when it is below this (R2, R40). -/
@[simp] abbrev Config.memSize : Nat := 0x1000

/-- STACK_DEPTH: return addresses the stack holds (R2, R14; 90_conflicts.md C1 chooses 24 over 16). DESIGN CHOICE: the depth
is fixed here and is no argument, although 93_implementation_defined.md U22 names it a parameter with the default 24 (log
entry 26). -/
@[simp] abbrev Config.stackDepth : Nat := 24

/-- PROG_BASE: where a ROM image is loaded and where `pc` starts (R2, R41, R170). -/
@[simp] abbrev Config.progBase : Nat := 0x200

/-- ROM_MAX: the longest ROM image in bytes (R2, R172). -/
@[simp] abbrev Config.romMax : Nat := 3584

/-- FONT_BASE: where the font table starts (R2, R41). -/
@[simp] abbrev Config.fontBase : Nat := 0

/-- FONT_BYTES: ten glyphs of five bytes (R2, R171). -/
@[simp] abbrev Config.fontBytes : Nat := 50

/-- GLYPH_BYTES: the bytes of one glyph (R2, R112). -/
@[simp] abbrev Config.glyphBytes : Nat := 5

/-- DISPLAY_COLS (R2, R22). -/
@[simp] abbrev Config.displayCols : Nat := 64

/-- DISPLAY_ROWS (R2, R22). -/
@[simp] abbrev Config.displayRows : Nat := 32

/-- The two readings the spec allows of a DRW of height 0: parameter DRW_N0 (R2; 93_implementation_defined.md U3). -/
inductive DrwN0 where
  | execute
  | fault
deriving DecidableEq, Repr

/-- The two readings the spec allows of an ADD I that passes 65535: parameter ADDI_WRAP (R2; 93_implementation_defined.md U6). -/
inductive AddIWrap where
  | wrap
  | fault
deriving DecidableEq, Repr

/-- FREE VALUE (R151; parameter RNG of R2; log entry 1). The byte the random input supplies at the k-th draw that no
injected byte answers: any byte, with no law between two draws. It has no body, so no proof can see what it is. -/
opaque Config.freeByte : Nat → Byte

end Sys2Proof
end

