-- ==== Sys2Proof/Syntax.lean ====
section
/-! DEFINITION. The instruction set as syntax: one constructor per row of spec/opcode_table.json (R65), and the shape
of a row's bit pattern. An operand has exactly the width its field has (R61, R63), so no operand can be out of range. -/

namespace Sys2Proof

/-- The 34 instructions, in the order of the opcode map (R65). `x` and `y` number registers, `kk` is the 8-bit, `n` the
4-bit immediate and `nnn` the 12-bit address (R61, R63). -/
inductive Instr where
  /-- `00E0` CLS (R120). -/
  | cls
  /-- `00EE` RET (R80). -/
  | ret
  /-- `1nnn` JP nnn (R81). -/
  | jp (nnn : Addr)
  /-- `2nnn` CALL nnn (R82). -/
  | call (nnn : Addr)
  /-- `3xkk` SE Vx,kk (R83). -/
  | seImm (x : Reg) (kk : Byte)
  /-- `4xkk` SNE Vx,kk (R84). -/
  | sneImm (x : Reg) (kk : Byte)
  /-- `5xy0` SE Vx,Vy (R85). -/
  | seReg (x y : Reg)
  /-- `6xkk` LD Vx,kk (R91). -/
  | ldImm (x : Reg) (kk : Byte)
  /-- `7xkk` ADD Vx,kk (R92). -/
  | addImm (x : Reg) (kk : Byte)
  /-- `8xy0` LD Vx,Vy (R93). -/
  | ldReg (x y : Reg)
  /-- `8xy1` OR Vx,Vy (R94). -/
  | orReg (x y : Reg)
  /-- `8xy2` AND Vx,Vy (R95). -/
  | andReg (x y : Reg)
  /-- `8xy3` XOR Vx,Vy (R96). -/
  | xorReg (x y : Reg)
  /-- `8xy4` ADD Vx,Vy (R97). -/
  | addReg (x y : Reg)
  /-- `8xy5` SUB Vx,Vy (R98). -/
  | sub (x y : Reg)
  /-- `8xy6` SHR Vx,Vy (R99). -/
  | shr (x y : Reg)
  /-- `8xy7` SUBN Vx,Vy (R100). -/
  | subn (x y : Reg)
  /-- `8xyE` SHL Vx,Vy (R101). -/
  | shl (x y : Reg)
  /-- `9xy0` SNE Vx,Vy (R86). -/
  | sneReg (x y : Reg)
  /-- `Annn` LD I,nnn (R110). -/
  | ldI (nnn : Addr)
  /-- `Bnnn` JP V0,nnn (R87). -/
  | jpV0 (nnn : Addr)
  /-- `Cxkk` RND Vx,kk (R130). -/
  | rnd (x : Reg) (kk : Byte)
  /-- `Dxyn` DRW Vx,Vy,n (R121). -/
  | drw (x y : Reg) (n : Nibble)
  /-- `Ex9E` SKP Vx (R131). -/
  | skp (x : Reg)
  /-- `ExA1` SKNP Vx (R132). -/
  | sknp (x : Reg)
  /-- `Fx07` LD Vx,DT (R133). -/
  | ldVxDt (x : Reg)
  /-- `Fx0A` LD Vx,K (R134). -/
  | ldVxK (x : Reg)
  /-- `Fx15` LD DT,Vx (R135). -/
  | ldDtVx (x : Reg)
  /-- `Fx18` LD ST,Vx (R136). -/
  | ldStVx (x : Reg)
  /-- `Fx1E` ADD I,Vx (R111). -/
  | addI (x : Reg)
  /-- `Fx29` LD F,Vx (R112). -/
  | ldF (x : Reg)
  /-- `Fx33` LD B,Vx (R113). -/
  | ldB (x : Reg)
  /-- `Fx55` LD [I],Vx (R114). -/
  | ldMemVx (x : Reg)
  /-- `Fx65` LD Vx,[I] (R115). -/
  | ldVxMem (x : Reg)
deriving DecidableEq, Repr

/-- The pattern column of the opcode map (R65): four hex digits, the high one always fixed; `none` is an operand digit. -/
structure Pattern where
  op : Nibble
  x : Option Nibble
  y : Option Nibble
  n : Option Nibble
deriving DecidableEq, Repr

end Sys2Proof
end

