-- ==== Sys2Proof/WellFormed.lean ====
section
/-! DEFINITION. The checks on data handed to the model that its types do not already make. Every `Instr` is well formed:
each operand has its field's own width (R61), and no word is a hint or a reserved form (R67). What can be ill formed is an
opcode table (the spec's parameter OPCODE_TABLE, R2, R65, R68) and a ROM image (R172). -/

namespace Sys2Proof

/-- Two digits of patterns can be met by one nibble: they are equal, or one of them is an operand digit. -/
def digitsMeet : Option Nibble → Option Nibble → Bool
  | some a, some b => a == b
  | _, _ => true

/-- Some word matches both patterns. -/
def Pattern.overlaps (p q : Pattern) : Bool :=
  p.op == q.op && digitsMeet p.x q.x && digitsMeet p.y q.y && digitsMeet p.n q.n

/-- No pattern of the list overlaps `p`. -/
def Pattern.apartFrom (p : Pattern) : List Pattern → Bool
  | [] => true
  | q :: rest => !p.overlaps q && p.apartFrom rest

/-- An opcode table is well formed: "No two rows match the same word" (R65). -/
def patternsWf : List Pattern → Bool
  | [] => true
  | p :: rest => p.apartFrom rest && patternsWf rest

/-- A ROM image is well formed: every byte of it lands below 0x1000 (R172). -/
def imageWf (image : List Byte) : Bool := decide (image.length ≤ Config.romMax)

end Sys2Proof
end

