-- ==== Sys2Proof/Decode.lean ====
section
/-! DEFINITION. The field cutter (R61, R64), the opcode map as data (R65), the dispatch over it (R66), and the encoder.
Decoding reads no state and is total on every word and every string of bytes; what it rejects, it rejects by name. -/

namespace Sys2Proof

/-- The six fields of an instruction word; they overlap (R61). -/
structure Fields where
  op : Nibble
  x : Nibble
  y : Nibble
  n : Nibble
  kk : Byte
  nnn : Addr
deriving DecidableEq, Repr

/-- Cut a word into its fields, all of them at once, whatever the instruction (R61). -/
def cutFields (w : Word) : Fields :=
  { op := w.extractLsb' 12 4
    x := w.extractLsb' 8 4
    y := w.extractLsb' 4 4
    n := w.extractLsb' 0 4
    kk := w.extractLsb' 0 8
    nnn := w.extractLsb' 0 12 }

/-- The field `x` as the number of a register (R63). -/
def Fields.rx (f : Fields) : Reg := f.x.toFin

/-- The field `y` as the number of a register (R63). -/
def Fields.ry (f : Fields) : Reg := f.y.toFin

/-- One row of the opcode map: the mnemonic as spec/opcode_table.json spells it, the pattern, and the instruction the row
makes of a word's fields. -/
structure Row where
  mnemonic : String
  pattern : Pattern
  build : Fields → Instr

/-- A word's fields agree with every fixed digit of a pattern: strict decode (R65, R66; log entry 3). -/
def Pattern.selects (p : Pattern) (f : Fields) : Bool :=
  p.op == f.op && p.x.all (· == f.x) && p.y.all (· == f.y) && p.n.all (· == f.n)

/-- Rows of formats FIX and NNN with class digits 0, 1 and 2 (R65 rows 1 to 4). -/
def rowsFlow : List Row :=
  [ ⟨"CLS", ⟨0x0, some 0x0, some 0xE, some 0x0⟩, fun _ => .cls⟩,
    ⟨"RET", ⟨0x0, some 0x0, some 0xE, some 0xE⟩, fun _ => .ret⟩,
    ⟨"JP_nnn", ⟨0x1, none, none, none⟩, fun f => .jp f.nnn⟩,
    ⟨"CALL_nnn", ⟨0x2, none, none, none⟩, fun f => .call f.nnn⟩ ]

/-- Classes 3 to 7 (R65 rows 5 to 9). -/
def rowsImmediate : List Row :=
  [ ⟨"SE_Vx_kk", ⟨0x3, none, none, none⟩, fun f => .seImm f.rx f.kk⟩,
    ⟨"SNE_Vx_kk", ⟨0x4, none, none, none⟩, fun f => .sneImm f.rx f.kk⟩,
    ⟨"SE_Vx_Vy", ⟨0x5, none, none, some 0x0⟩, fun f => .seReg f.rx f.ry⟩,
    ⟨"LD_Vx_kk", ⟨0x6, none, none, none⟩, fun f => .ldImm f.rx f.kk⟩,
    ⟨"ADD_Vx_kk", ⟨0x7, none, none, none⟩, fun f => .addImm f.rx f.kk⟩ ]

/-- Class 8 (R65 rows 10 to 18). -/
def rowsAlu : List Row :=
  [ ⟨"LD_Vx_Vy", ⟨0x8, none, none, some 0x0⟩, fun f => .ldReg f.rx f.ry⟩,
    ⟨"OR_Vx_Vy", ⟨0x8, none, none, some 0x1⟩, fun f => .orReg f.rx f.ry⟩,
    ⟨"AND_Vx_Vy", ⟨0x8, none, none, some 0x2⟩, fun f => .andReg f.rx f.ry⟩,
    ⟨"XOR_Vx_Vy", ⟨0x8, none, none, some 0x3⟩, fun f => .xorReg f.rx f.ry⟩,
    ⟨"ADD_Vx_Vy", ⟨0x8, none, none, some 0x4⟩, fun f => .addReg f.rx f.ry⟩,
    ⟨"SUB_Vx_Vy", ⟨0x8, none, none, some 0x5⟩, fun f => .sub f.rx f.ry⟩,
    ⟨"SHR_Vx_Vy", ⟨0x8, none, none, some 0x6⟩, fun f => .shr f.rx f.ry⟩,
    ⟨"SUBN_Vx_Vy", ⟨0x8, none, none, some 0x7⟩, fun f => .subn f.rx f.ry⟩,
    ⟨"SHL_Vx_Vy", ⟨0x8, none, none, some 0xE⟩, fun f => .shl f.rx f.ry⟩ ]

/-- Classes 9 to E (R65 rows 19 to 25). -/
def rowsMiddle : List Row :=
  [ ⟨"SNE_Vx_Vy", ⟨0x9, none, none, some 0x0⟩, fun f => .sneReg f.rx f.ry⟩,
    ⟨"LD_I_nnn", ⟨0xA, none, none, none⟩, fun f => .ldI f.nnn⟩,
    ⟨"JP_V0_nnn", ⟨0xB, none, none, none⟩, fun f => .jpV0 f.nnn⟩,
    ⟨"RND_Vx_kk", ⟨0xC, none, none, none⟩, fun f => .rnd f.rx f.kk⟩,
    ⟨"DRW_Vx_Vy_n", ⟨0xD, none, none, none⟩, fun f => .drw f.rx f.ry f.n⟩,
    ⟨"SKP_Vx", ⟨0xE, none, some 0x9, some 0xE⟩, fun f => .skp f.rx⟩,
    ⟨"SKNP_Vx", ⟨0xE, none, some 0xA, some 0x1⟩, fun f => .sknp f.rx⟩ ]

/-- Class F (R65 rows 26 to 34). -/
def rowsMisc : List Row :=
  [ ⟨"LD_Vx_DT", ⟨0xF, none, some 0x0, some 0x7⟩, fun f => .ldVxDt f.rx⟩,
    ⟨"LD_Vx_K", ⟨0xF, none, some 0x0, some 0xA⟩, fun f => .ldVxK f.rx⟩,
    ⟨"LD_DT_Vx", ⟨0xF, none, some 0x1, some 0x5⟩, fun f => .ldDtVx f.rx⟩,
    ⟨"LD_ST_Vx", ⟨0xF, none, some 0x1, some 0x8⟩, fun f => .ldStVx f.rx⟩,
    ⟨"ADD_I_Vx", ⟨0xF, none, some 0x1, some 0xE⟩, fun f => .addI f.rx⟩,
    ⟨"LD_F_Vx", ⟨0xF, none, some 0x2, some 0x9⟩, fun f => .ldF f.rx⟩,
    ⟨"LD_B_Vx", ⟨0xF, none, some 0x3, some 0x3⟩, fun f => .ldB f.rx⟩,
    ⟨"LD__I__Vx", ⟨0xF, none, some 0x5, some 0x5⟩, fun f => .ldMemVx f.rx⟩,
    ⟨"LD_Vx__I", ⟨0xF, none, some 0x6, some 0x5⟩, fun f => .ldVxMem f.rx⟩ ]

/-- The opcode map, 34 rows (R65). Every number but the class digits 6 and 7 is the spec's assumption (R68; log entry 2). -/
def opcodeTable : List Row :=
  rowsFlow ++ rowsImmediate ++ rowsAlu ++ rowsMiddle ++ rowsMisc

/-- Why a string of bytes is no instruction. -/
inductive DecodeReject where
  /-- The word matches no row of the opcode map (R66). -/
  | invalidInstruction (w : Word)
  /-- Fewer than the two bytes of an instruction are there (R62). -/
  | truncated
deriving DecidableEq, Repr

/-- Dispatch over a table handed in: the row whose pattern the word's fields meet (R65; parameter OPCODE_TABLE of R2). -/
def decodeWith (table : List Row) (w : Word) : Except DecodeReject Instr :=
  match table.find? (fun r => r.pattern.selects (cutFields w)) with
  | some r => .ok (r.build (cutFields w))
  | none => .error (.invalidInstruction w)

/-- Dispatch over the spec's opcode map (R65, R66). -/
def decodeWord (w : Word) : Except DecodeReject Instr := decodeWith opcodeTable w

/-- The 16-bit word of two bytes in memory order: the byte at the lower address is the high byte (R43). -/
def wordOfBytes (hi lo : Byte) : Word := hi ++ lo

/-- The high byte of a word, the one at the lower address (R43, R71). -/
def highByte (w : Word) : Byte := w.extractLsb' 8 8

/-- The low byte of a word, the one at the higher address (R43, R71). -/
def lowByte (w : Word) : Byte := w.extractLsb' 0 8

/-- Decode the first instruction of a string of bytes and give the rest of the string (R43, R62). -/
def decodeBytes : List Byte → Except DecodeReject (Instr × List Byte)
  | hi :: lo :: rest =>
    match decodeWord (wordOfBytes hi lo) with
    | .ok i => .ok (i, rest)
    | .error e => .error e
  | _ => .error .truncated

/-- The instruction the decoder reads from an instruction whose bits are `w`, bit 0 the least significant bit of its one
word; bits of the word at or above `nbits` are 0. -/
def decodeTableWord (nbits w : Nat) : Option Instr :=
  match decodeBytes [highByte (BitVec.ofNat 16 (w % 2 ^ nbits)), lowByte (BitVec.ofNat 16 (w % 2 ^ nbits))] with
  | .ok (i, _) => some i
  | .error _ => none

/-- A word of format XYF, XYN, XFF or FIX: four nibbles, bit 15 first (R62). -/
def packNibbles (op x y n : Nibble) : Word := op ++ x ++ y ++ n

/-- A word of format XKK (R62). -/
def packXkk (op x : Nibble) (kk : Byte) : Word := op ++ x ++ kk

/-- A word of format NNN (R62). -/
def packNnn (op : Nibble) (nnn : Addr) : Word := op ++ nnn

/-- The number of a register as a field. -/
def regField (r : Reg) : Nibble := BitVec.ofFin r

/-- The word of an instruction, from the pattern column of the opcode map (R65). -/
def encode : Instr → Word
  | .cls => packNibbles 0x0 0x0 0xE 0x0
  | .ret => packNibbles 0x0 0x0 0xE 0xE
  | .jp nnn => packNnn 0x1 nnn
  | .call nnn => packNnn 0x2 nnn
  | .seImm x kk => packXkk 0x3 (regField x) kk
  | .sneImm x kk => packXkk 0x4 (regField x) kk
  | .seReg x y => packNibbles 0x5 (regField x) (regField y) 0x0
  | .ldImm x kk => packXkk 0x6 (regField x) kk
  | .addImm x kk => packXkk 0x7 (regField x) kk
  | .ldReg x y => packNibbles 0x8 (regField x) (regField y) 0x0
  | .orReg x y => packNibbles 0x8 (regField x) (regField y) 0x1
  | .andReg x y => packNibbles 0x8 (regField x) (regField y) 0x2
  | .xorReg x y => packNibbles 0x8 (regField x) (regField y) 0x3
  | .addReg x y => packNibbles 0x8 (regField x) (regField y) 0x4
  | .sub x y => packNibbles 0x8 (regField x) (regField y) 0x5
  | .shr x y => packNibbles 0x8 (regField x) (regField y) 0x6
  | .subn x y => packNibbles 0x8 (regField x) (regField y) 0x7
  | .shl x y => packNibbles 0x8 (regField x) (regField y) 0xE
  | .sneReg x y => packNibbles 0x9 (regField x) (regField y) 0x0
  | .ldI nnn => packNnn 0xA nnn
  | .jpV0 nnn => packNnn 0xB nnn
  | .rnd x kk => packXkk 0xC (regField x) kk
  | .drw x y n => packNibbles 0xD (regField x) (regField y) n
  | .skp x => packNibbles 0xE (regField x) 0x9 0xE
  | .sknp x => packNibbles 0xE (regField x) 0xA 0x1
  | .ldVxDt x => packNibbles 0xF (regField x) 0x0 0x7
  | .ldVxK x => packNibbles 0xF (regField x) 0x0 0xA
  | .ldDtVx x => packNibbles 0xF (regField x) 0x1 0x5
  | .ldStVx x => packNibbles 0xF (regField x) 0x1 0x8
  | .addI x => packNibbles 0xF (regField x) 0x1 0xE
  | .ldF x => packNibbles 0xF (regField x) 0x2 0x9
  | .ldB x => packNibbles 0xF (regField x) 0x3 0x3
  | .ldMemVx x => packNibbles 0xF (regField x) 0x5 0x5
  | .ldVxMem x => packNibbles 0xF (regField x) 0x6 0x5

/-- The two bytes of an instruction as a ROM image holds them: high byte first (R43, R71). -/
def encodeBytes (i : Instr) : List Byte := [highByte (encode i), lowByte (encode i)]

end Sys2Proof
end

