-- ==== Sys2Proof/Machine/State.lean ====
section
/-! DEFINITION. Everything the spec gives the machine (R10 to R25), the reset values (R26), and the reasons a step stops. -/

namespace Sys2Proof.Machine

/-- The run mode (R18). No Step reads it (R158). -/
inductive Mode where
  | stopped
  | running
  | waitingKey
deriving DecidableEq, Repr

/-- Memory as address and byte pairs, addresses strictly rising, no pair whose byte is what an unlisted address reads as
(R21, R40). -/
abbrev Memory := List Host.Cell

/-- The display buffer: 32 rows by 64 columns of one-bit pixels, `true` is set (R22). -/
abbrev Display := Vector (Vector Bool Config.displayCols) Config.displayRows

/-- The state of the core: R25 says the fields up to `drawn` are all of it. The last two are the model's own: they stand for
the random input, which the spec puts outside the core (R151; log entry 1). -/
structure State where
  /-- `V[0]` .. `V[15]`, 8 bits each; `V[15]` is the flag register (R10, R11). -/
  v : Vector Byte 16
  /-- The program counter, stored in 16 bits (R12). -/
  pc : Word
  /-- The address register `I`, stored in 16 bits (R13). -/
  i : Word
  /-- The call stack, 24 entries of 16 bits (R14; log entry 26). -/
  stack : Vector Word Config.stackDepth
  /-- The stack cursor: how many return addresses are held, 0 to 24 (R15). -/
  sp : Fin (Config.stackDepth + 1)
  /-- The delay counter (R16). -/
  dt : Byte
  /-- The sound counter (R17). -/
  st : Byte
  /-- The 4096-byte memory (R21, R40). -/
  mem : Memory
  /-- The run mode (R18). -/
  mode : Mode
  /-- The display buffer (R22). -/
  fb : Display
  /-- The "down" flag of each key (R23). -/
  keysDown : Vector Bool 16
  /-- The pending released-key edge (R24). -/
  keyRel : Option Key
  /-- The per-frame draw limiter: a DRW has executed since the last NewFrame (R19). -/
  drawn : Bool
  /-- MODEL'S OWN: the bytes the injected random source has ready, the next one first (R151). -/
  rndIn : List Byte
  /-- MODEL'S OWN: how many draws the free random source has answered (R151). -/
  draws : Nat
deriving DecidableEq, Repr

/-- The state right after Reset (R26, R170; log entry 20). The last two fields are no register: the random source has no bytes injected
and has answered no draw (DESIGN CHOICE, log entry 1). -/
def State.reset : State :=
  { v := Vector.replicate 16 0
    pc := 0x200
    i := 0
    stack := Vector.replicate Config.stackDepth 0
    sp := 0
    dt := 0
    st := 0
    mem := []
    mode := .stopped
    fb := Vector.replicate Config.displayRows (Vector.replicate Config.displayCols false)
    keysDown := Vector.replicate 16 false
    keyRel := none
    drawn := false
    rndIn := []
    draws := 0 }

/-- Why a Step stops: the four failures of the core (R140 to R144) and the cases the spec tells a model to stop on. A failure
is returned to the host and transfers no control inside the machine (R148), so it is no next state (R149); each constructor
carries the state the Step leaves behind (R145), from which a host may go on (R149). -/
inductive Fault where
  /-- Raised at dispatch of a word that matches no row of the opcode map (R141, R66). Safe: the spec's own failure. -/
  | invalidInstruction (left : State)
  /-- Raised by CALL when the stack holds 24 return addresses (R142, R82). Safe: the spec's own failure. -/
  | stackOverflow (left : State)
  /-- Raised by RET on an empty stack (R143, R80). Safe: the spec's own failure. -/
  | stackUnderflow (left : State)
  /-- Raised by the fetch, JP V0, LD B, LD [I], LD Vx,[I] and DRW for an address of 0x1000 or above (R144).
  Safe: the spec's own failure. -/
  | addressOverflow (left : State)
  /-- Raised by SKP and SKNP when `V[x]` is 16 or more: not a failure of the hardware; R137 and R162 tell a model to stop
  there. Safe: nothing can be proved of a run that reaches it (log entry 4). -/
  | unspecifiedKeyIndex (left : State)
  /-- Raised by DRW of height 0 only where parameter DRW_N0 is set to fault (R2; 93_implementation_defined.md U3); the
  default executes, so `step` never raises it. Safe. -/
  | unspecifiedSpriteHeight (left : State)
  /-- Raised by ADD I past 65535 only where parameter ADDI_WRAP is set to fault (R2, R111; 93_implementation_defined.md U6);
  the default wraps, so `step` never raises it. Safe. -/
  | unspecifiedIndexWrap (left : State)
deriving DecidableEq, Repr

/-- Why the model gives no next state although the machine did not stop. -/
inductive Refusal where
  /-- Raised by exec for an instruction that has no meaning yet: none is left. Safe. -/
  | notModelled (mnemonic : String)
  /-- Raised by the host's Reset on a machine that exists: there is no soft reset (R174). Safe. -/
  | resetAfterConstruction
  /-- Raised by the host's LoadFont or LoadROM a second time or after the first Step (R150; 93_implementation_defined.md
  U13). Safe. -/
  | loadOutsideBoot
  /-- Raised by the host's LoadROM of an image longer than 3584 bytes (R172; 93_implementation_defined.md U14). Safe. -/
  | romTooLong
deriving DecidableEq, Repr

end Sys2Proof.Machine
end

