-- ==== Sys2Proof/Machine/Parameters.lean ====
section
/-! DEFINITION. The spec's open parameters and the values the model gives them: each is the default the spec states (R2;
92_eei_decisions.md, "Open parameters, collected"). The operations that depend on one take it as an argument. -/

namespace Sys2Proof.Machine

/-- KEYWAIT_MODE: LD Vx,K does not record its wait in `mode` (R158 default off; log entry 5). -/
def keyWaitMode : Bool := false

/-- DRW_N0: a DRW of height 0 executes (R121 corner case; log entry 6). -/
def drwN0 : DrwN0 := .execute

/-- ADDI_WRAP: ADD I wraps modulo 65536 (R111; log entry 7). -/
def addIWrap : AddIWrap := .wrap

/-- FONT: the conventional digit glyphs the spec gives as the default (R171; log entry 8). No Step reads it. -/
def defaultFont : Vector Byte Config.fontBytes :=
  #v[0xF0, 0x90, 0x90, 0x90, 0xF0,
     0x20, 0x60, 0x20, 0x20, 0x70,
     0xF0, 0x10, 0xF0, 0x80, 0xF0,
     0xF0, 0x10, 0xF0, 0x10, 0xF0,
     0x90, 0x90, 0xF0, 0x10, 0x10,
     0xF0, 0x80, 0xF0, 0x10, 0xF0,
     0xF0, 0x80, 0xF0, 0x90, 0xF0,
     0xF0, 0x10, 0x20, 0x40, 0x40,
     0xF0, 0x90, 0xF0, 0x90, 0xF0,
     0xF0, 0x90, 0xF0, 0x10, 0xF0]

/-- STEPS_PER_FRAME, the conventional count (R2, R178). No rule depends on it: the frame schedule takes it as an argument. -/
def conventionalStepsPerFrame : Nat := 10

/-- The parameters of R2 that a Step depends on. The others are arguments where they enter: FONT of LoadFont,
STEPS_PER_FRAME of the frame schedule, RNG the bytes of the random input. STACK_DEPTH is not offered: it is the constant
`Config.stackDepth`, a size in the types of State (DESIGN CHOICE, log entry 26). -/
structure Parameters where
  keyWaitMode : Bool
  drwN0 : DrwN0
  addIWrap : AddIWrap
  opcodeTable : List Row

/-- Every parameter at the default of R2. -/
def Parameters.default : Parameters :=
  ⟨Sys2Proof.Machine.keyWaitMode, Sys2Proof.Machine.drwN0, Sys2Proof.Machine.addIWrap, Sys2Proof.opcodeTable⟩

/-- The parameters are well formed: no two rows of the opcode table match the same word (R65). -/
def Parameters.wf (p : Parameters) : Bool := patternsWf (p.opcodeTable.map fun r => r.pattern)

end Sys2Proof.Machine
end

