-- ==== Sys2Proof/Machine/Ops.lean ====
section
/-! DEFINITION. The named operations over the state: one setter a field, registers, memory, the program counter, the stack,
the random input, and the raising of a failure. -/

namespace Sys2Proof.Machine

/-- What one Step or one instruction answers. -/
abbrev Answer := Host.Outcome State Fault Refusal

/-! ### One setter a field -/

/-- Write the program counter. -/
def State.setPc (s : State) (w : Word) : State := { s with pc := w }
/-- Write the address register. -/
def State.setI (s : State) (w : Word) : State := { s with i := w }
/-- Replace the stack's entries. -/
def State.setStack (s : State) (k : Vector Word Config.stackDepth) : State := { s with stack := k }
/-- Write the stack cursor. -/
def State.setSp (s : State) (k : Fin (Config.stackDepth + 1)) : State := { s with sp := k }
/-- Write the delay counter. -/
def State.setDt (s : State) (b : Byte) : State := { s with dt := b }
/-- Write the sound counter. -/
def State.setSt (s : State) (b : Byte) : State := { s with st := b }
/-- Replace the memory. -/
def State.setMem (s : State) (m : Memory) : State := { s with mem := m }
/-- Write the run mode. -/
def State.setMode (s : State) (m : Mode) : State := { s with mode := m }
/-- Replace the display buffer. -/
def State.setFb (s : State) (d : Display) : State := { s with fb := d }
/-- Replace the keys' "down" flags. -/
def State.setKeysDown (s : State) (k : Vector Bool 16) : State := { s with keysDown := k }
/-- Write the pending released-key edge. -/
def State.setKeyRel (s : State) (k : Option Key) : State := { s with keyRel := k }
/-- Write the draw limiter. -/
def State.setDrawn (s : State) (b : Bool) : State := { s with drawn := b }
/-- Line up the bytes of the injected random source. -/
def State.setRndIn (s : State) (bs : List Byte) : State := { s with rndIn := bs }
/-- Write the count of free draws. -/
def State.setDraws (s : State) (k : Nat) : State := { s with draws := k }

/-! ### General registers (R10) -/

/-- `V[x]`. -/
def State.reg (s : State) (x : Reg) : Byte := s.v.get x

/-- `V[x] <- b`. -/
def State.setReg (s : State) (x : Reg) (b : Byte) : State := { s with v := s.v.set x.val b x.isLt }

/-- The number of the flag register VF (R11). -/
@[simp] abbrev flagReg : Reg := 15

/-! ### Memory (R40 to R48) -/

/-- What an address that the memory does not list reads as: memory is zero after Reset (R21, R26; log entry 21). -/
def Memory.blank : Byte := 0

/-- The byte at an address (R46). -/
def Memory.read : Memory → Nat → Byte
  | [], _ => Memory.blank
  | (k, b) :: rest, a => if a = k then b else Memory.read rest a

/-- `m` with a cell in front, left out when its byte is what an unlisted address reads as. -/
def Memory.cons (a : Nat) (b : Byte) (m : Memory) : Memory :=
  if b = Memory.blank then m else (a, b) :: m

/-- The memory after a byte is stored (R42, R47), in canonical form when it was in canonical form. -/
def Memory.write : Memory → Nat → Byte → Memory
  | [], a, b => Memory.cons a b []
  | (k, c) :: rest, a, b =>
    if a < k then Memory.cons a b ((k, c) :: rest)
    else if a = k then Memory.cons a b rest
    else (k, c) :: Memory.write rest a b

/-- The memory after a run of bytes is stored from an address up (R44). -/
def Memory.writeList : Memory → Nat → List Byte → Memory
  | m, _, [] => m
  | m, a, b :: bs => Memory.writeList (Memory.write m a b) (a + 1) bs

/-- The run of `n` bytes from an address up (R44). -/
def Memory.readList (m : Memory) (a n : Nat) : List Byte := (List.range n).map fun k => Memory.read m (a + k)

/-- Canonical from `lo` up: addresses strictly rising from `lo` and below 0x1000, no cell a blank byte. -/
def Memory.wfFrom : Nat → Memory → Bool
  | _, [] => true
  | lo, (a, b) :: rest =>
    decide (lo ≤ a) && decide (a < Config.memSize) && decide (b ≠ Memory.blank) && Memory.wfFrom (a + 1) rest

/-- The canonical form of memory: equal memories are equal lists. -/
def Memory.wf (m : Memory) : Bool := Memory.wfFrom 0 m

/-- The bounds check of a run of `n` bytes from an unbounded address up (R42, R48): the last byte lies below 0x1000. A run of
no bytes touches nothing and is always in bounds (R121, `n = 0`). -/
def inBounds (a n : Nat) : Bool := decide (n = 0 ∨ a + n - 1 < Config.memSize)

/-- `MemRead` of a run of bytes; `none` is AddressOverflow (R42). -/
def State.readBytes (s : State) (a n : Nat) : Option (List Byte) :=
  if inBounds a n then some (s.mem.readList a n) else none

/-- `MemWrite` of a run of bytes, all or nothing; `none` is AddressOverflow (R42, R48). -/
def State.writeBytes (s : State) (a : Nat) (bs : List Byte) : Option State :=
  if inBounds a bs.length then some (s.setMem (s.mem.writeList a bs)) else none

/-! ### Program counter (R12) -/

/-- `pc <- pc + 2`: the advance before dispatch (R60), and a taken skip (R83). -/
def State.advance (s : State) : State := s.setPc (s.pc + 2)

/-- `pc <- pc - 2`: the rewind of a stall (R121, R134). -/
def State.rewind (s : State) : State := s.setPc (s.pc - 2)

/-- Advance past the next instruction when a condition holds (R83, R88). -/
def State.skipIf (s : State) (c : Bool) : State := if c then s.advance else s

/-- The two bytes at `pc` as a word, high byte first; `none` when one of them lies at 0x1000 or above (R60, R43). -/
def State.fetchWord (s : State) : Option Word :=
  match s.readBytes s.pc.toNat 2 with
  | some [hi, lo] => some (wordOfBytes hi lo)
  | _ => none

/-! ### Call stack (R14, R15) -/

/-- Push `pc`; `none` when the stack is full (R82). -/
def State.pushPc (s : State) : Option State :=
  if h : s.sp.val < Config.stackDepth then
    some ((s.setStack (s.stack.set s.sp.val s.pc h)).setSp ⟨s.sp.val + 1, Nat.succ_lt_succ h⟩)
  else none

/-- Pop into `pc`, leaving the popped entry in place; `none` when the stack is empty (R80, R15; log entry 9). -/
def State.popPc (s : State) : Option State :=
  match s.sp with
  | ⟨0, _⟩ => none
  | ⟨k + 1, h⟩ => some ((s.setSp ⟨k, Nat.lt_of_succ_lt h⟩).setPc (s.stack.get ⟨k, Nat.lt_of_succ_lt_succ h⟩))

/-! ### The random input (R151) -/

/-- Take one fresh byte from the random input: the next injected byte, or else a free value (log entry 1). -/
def State.drawByte (s : State) : Byte × State :=
  match s.rndIn with
  | b :: rest => (b, s.setRndIn rest)
  | [] => (Config.freeByte s.draws, s.setDraws (s.draws + 1))

/-! ### Failures (R140 to R149) -/

/-- Taking a failure: the Step ends, the host gets the kind, and `s` is the state left behind: the state before the Step when
the fetch raises it, else that state with `pc` advanced, since no rule changes anything before its check (R145, R148;
log entry 10). -/
def raise (kind : State → Fault) (s : State) : Answer := .fault (kind s)

/-- The state a stopped Step leaves behind (R145). -/
def Fault.left : Fault → State
  | .invalidInstruction s => s
  | .stackOverflow s => s
  | .stackUnderflow s => s
  | .addressOverflow s => s
  | .unspecifiedKeyIndex s => s
  | .unspecifiedSpriteHeight s => s
  | .unspecifiedIndexWrap s => s

/-- Going on after a failure: there is nothing to restore, the next Step runs from the state left behind (R149). The cases
that are no failure of the hardware have no continuation, since the spec does not say what the hardware does (R162). -/
def Fault.resume : Fault → Option State
  | .invalidInstruction s => some s
  | .stackOverflow s => some s
  | .stackUnderflow s => some s
  | .addressOverflow s => some s
  | .unspecifiedKeyIndex _ => none
  | .unspecifiedSpriteHeight _ => none
  | .unspecifiedIndexWrap _ => none

/-- The number of a failure's kind, where one is wanted; 0 is success (R140). -/
def Fault.code : Fault → Option Nat
  | .invalidInstruction _ => some 1
  | .stackOverflow _ => some 2
  | .stackUnderflow _ => some 3
  | .addressOverflow _ => some 4
  | .unspecifiedKeyIndex _ => none
  | .unspecifiedSpriteHeight _ => none
  | .unspecifiedIndexWrap _ => none

/-- The number of a run mode, where one is wanted (R18). -/
def Mode.code : Mode → Nat
  | .stopped => 0
  | .running => 1
  | .waitingKey => 2

/-- A next state, or a raised failure when an operation had none to give. -/
def orRaise (r : Option State) (kind : State → Fault) (s : State) : Answer :=
  match r with
  | some t => .next t
  | none => raise kind s

/-- One Step over a dispatch and the instruction rules: fetch, advance, decode, run (R60). The run mode is not read (R158). -/
def stepOf (decode : Word → Except DecodeReject Instr) (run : Instr → State → Answer) (s : State) : Answer :=
  match s.fetchWord with
  | none => raise .addressOverflow s
  | some w =>
    match decode w with
    | .ok i => run i s.advance
    | .error _ => raise .invalidInstruction s.advance

end Sys2Proof.Machine
end

