-- ==== Sys2Proof/Machine/Operands.lean ====
section
/-! DEFINITION. The operand forms: the one addressing mode for data (R116), an address operand (R63), a key number (R137). -/

namespace Sys2Proof.Machine

/-- `EA = I + k` over the unbounded integers (R116). -/
def State.ea (s : State) (k : Nat) : Nat := s.i.toNat + k

/-- `zext_16(nnn)` (R63). -/
def addrWord (nnn : Addr) : Word := nnn.setWidth 16

/-- `nnn + V[0]` over the unbounded integers (R87). -/
def State.offsetTarget (s : State) (nnn : Addr) : Nat := nnn.toNat + (s.reg 0).toNat

/-- `V[x]` as the number of a key; `none` is `unspecified(KeyIndex)` (R137). -/
def State.keyIndex (s : State) (x : Reg) : Option Key :=
  if h : (s.reg x).toNat < 16 then some ⟨(s.reg x).toNat, h⟩ else none

/-- The registers `V[k]`, `V[k+1]`, .. of a run of `n` (R114: `V[0]` at the lowest address; log entry 11). -/
def State.firstRegs (s : State) (n : Nat) : List Byte := s.v.toList.take n

/-- Load a run of bytes into the registers from `V[k]` up (R115; log entry 11). A byte for which no register is left is
dropped; a block load brings at most 16. -/
def State.loadRegs : State → Nat → List Byte → State
  | s, _, [] => s
  | s, k, b :: bs => State.loadRegs (if h : k < 16 then s.setReg ⟨k, h⟩ b else s) (k + 1) bs

end Sys2Proof.Machine
end

