-- ==== Sys2Proof/Machine/Flags.lean ====
section
/-! DEFINITION. The flag computations, and the order in which a result and its flag are written (R11, R90, R102). -/

namespace Sys2Proof.Machine

/-- The 8-bit value of a flag: 0 or 1, all eight bits (R11). -/
def flagByte (f : Bool) : Byte := if f then 1 else 0

/-- Carry: the true sum is above 255 (R97, R102). -/
def carryOut (a b : Byte) : Bool := decide (a.toNat + b.toNat > 255)

/-- Not-borrow: the minuend is at least the subtrahend (R98, R100, R102). -/
def notBorrow (minuend subtrahend : Byte) : Bool := decide (minuend.toNat ≥ subtrahend.toNat)

/-- The bit SHR shifts out (R99). -/
def lowBit (t : Byte) : Bool := t.getLsbD 0

/-- The bit SHL shifts out (R101). -/
def highBit (t : Byte) : Bool := t.getLsbD 7

/-- Write the flag register (R11). -/
def State.setFlag (s : State) (f : Bool) : State := s.setReg flagReg (flagByte f)

/-- Write the result to `V[x]`, then the flag to `V[15]`: with `x = 15` the flag wins (R90; log entry 12). -/
def State.setResult (s : State) (x : Reg) (r : Byte) (f : Bool) : State := (s.setReg x r).setFlag f

/-- A two-register instruction with a flag: both operands are read before anything is written (R90). -/
def aluFlag (result : Byte → Byte → Byte) (flag : Byte → Byte → Bool) (x y : Reg) (s : State) : Answer :=
  .next (s.setResult x (result (s.reg x) (s.reg y)) (flag (s.reg x) (s.reg y)))

end Sys2Proof.Machine
end

