-- ==== Sys2Proof/Machine/Alu.lean ====
section
/-! DEFINITION. Register load, arithmetic, logic and shift (spec 41_arith_logic.md). None of them can fail. -/

namespace Sys2Proof.Machine

/-- LD Vx,kk (R91). -/
def execLdImm (x : Reg) (kk : Byte) (s : State) : Answer := .next (s.setReg x kk)

/-- ADD Vx,kk (R92): wraps, writes no flag. -/
def execAddImm (x : Reg) (kk : Byte) (s : State) : Answer := .next (s.setReg x (s.reg x + kk))

/-- LD Vx,Vy (R93). -/
def execLdReg (x y : Reg) (s : State) : Answer := .next (s.setReg x (s.reg y))

/-- OR Vx,Vy (R94): VF is cleared. -/
def execOrReg (x y : Reg) (s : State) : Answer := aluFlag (fun a b => a ||| b) (fun _ _ => false) x y s

/-- AND Vx,Vy (R95): VF is cleared. -/
def execAndReg (x y : Reg) (s : State) : Answer := aluFlag (fun a b => a &&& b) (fun _ _ => false) x y s

/-- XOR Vx,Vy (R96): VF is cleared. -/
def execXorReg (x y : Reg) (s : State) : Answer := aluFlag (fun a b => a ^^^ b) (fun _ _ => false) x y s

/-- ADD Vx,Vy (R97): VF is the carry. -/
def execAddReg (x y : Reg) (s : State) : Answer := aluFlag (fun a b => a + b) carryOut x y s

/-- SUB Vx,Vy (R98): VF is the not-borrow. -/
def execSub (x y : Reg) (s : State) : Answer := aluFlag (fun a b => a - b) notBorrow x y s

/-- SHR Vx,Vy (R99): shifts `V[y]`. -/
def execShr (x y : Reg) (s : State) : Answer := aluFlag (fun _ t => t >>> 1) (fun _ t => lowBit t) x y s

/-- SUBN Vx,Vy (R100): `V[y] - V[x]`. -/
def execSubn (x y : Reg) (s : State) : Answer := aluFlag (fun a b => b - a) (fun a b => notBorrow b a) x y s

/-- SHL Vx,Vy (R101): shifts `V[y]`. -/
def execShl (x y : Reg) (s : State) : Answer := aluFlag (fun _ t => t <<< 1) (fun _ t => highBit t) x y s

end Sys2Proof.Machine
end

