-- ==== Sys2Proof/Machine/ControlFlow.lean ====
section
/-! DEFINITION. Control transfer (spec 40_control_flow.md). `pc` is already the address of the instruction plus 2 (R60). -/

namespace Sys2Proof.Machine

/-- RET (R80). -/
def execRet (s : State) : Answer := orRaise s.popPc .stackUnderflow s

/-- JP nnn (R81). -/
def execJp (nnn : Addr) (s : State) : Answer := .next (s.setPc (addrWord nnn))

/-- CALL nnn (R82). -/
def execCall (nnn : Addr) (s : State) : Answer :=
  orRaise (s.pushPc.map fun t => t.setPc (addrWord nnn)) .stackOverflow s

/-- SE Vx,kk (R83). -/
def execSeImm (x : Reg) (kk : Byte) (s : State) : Answer := .next (s.skipIf (s.reg x == kk))

/-- SNE Vx,kk (R84). -/
def execSneImm (x : Reg) (kk : Byte) (s : State) : Answer := .next (s.skipIf (s.reg x != kk))

/-- SE Vx,Vy (R85). -/
def execSeReg (x y : Reg) (s : State) : Answer := .next (s.skipIf (s.reg x == s.reg y))

/-- SNE Vx,Vy (R86). -/
def execSneReg (x y : Reg) (s : State) : Answer := .next (s.skipIf (s.reg x != s.reg y))

/-- JP V0,nnn (R87): the sum is not reduced, and fails at 0x1000. -/
def execJpV0 (nnn : Addr) (s : State) : Answer :=
  if s.offsetTarget nnn < Config.memSize then .next (s.setPc (BitVec.ofNat 16 (s.offsetTarget nnn)))
  else raise .addressOverflow s

end Sys2Proof.Machine
end

