-- ==== Sys2Proof/Machine/DisplayUnit.lean ====
section
/-! DEFINITION. The display instructions and the XOR sprite engine (spec 43_display.md). -/

namespace Sys2Proof.Machine

/-- The pixel at a row and column; outside the buffer there is none, and it reads as clear (R22). -/
def Display.pixel (d : Display) (row col : Nat) : Bool := (d[row]?.bind fun r => r[col]?).getD false

/-- The display with one pixel written (R22). -/
def Display.setPixel (d : Display) (row col : Nat) (b : Bool) : Display :=
  d.setIfInBounds row ((d[row]?.getD (Vector.replicate Config.displayCols false)).setIfInBounds col b)

/-- The blank display (R120). -/
def Display.blank : Display := Vector.replicate Config.displayRows (Vector.replicate Config.displayCols false)

/-- A sprite row as pixels, the leftmost first: bit 7 is column offset 0 (R122; log entry 13). -/
def spriteRow (byte : Byte) : List Bool := (List.range 8).map fun b => byte.getLsbD (7 - b)

/-- A blit under way: the display so far, and whether a set pixel met a sprite bit (R121 step 4). -/
structure Blit where
  fb : Display
  coll : Bool
deriving DecidableEq, Repr

/-- XOR one sprite bit in; a 1 bit on a set pixel is a collision, a 0 bit does nothing (R121). -/
def Blit.plot (t : Blit) (row col : Nat) (bit : Bool) : Blit :=
  if bit then { fb := Display.setPixel t.fb row col (!Display.pixel t.fb row col), coll := t.coll || Display.pixel t.fb row col }
  else t

/-- One sprite row from a column on, clipped at the right edge (R121). -/
def blitRow (row : Nat) : Nat → List Bool → Blit → Blit
  | _, [], t => t
  | col, bit :: bits, t =>
    if col ≥ Config.displayCols then t else blitRow row (col + 1) bits (t.plot row col bit)

/-- The sprite's rows from a row on, clipped at the bottom edge (R121). -/
def blitRows (col : Nat) : Nat → List Byte → Blit → Blit
  | _, [], t => t
  | row, byte :: bytes, t =>
    if row ≥ Config.displayRows then t else blitRows col (row + 1) bytes (blitRow row col (spriteRow byte) t)

/-- CLS (R120): not a draw for the limiter (log entry 15). -/
def execCls (s : State) : Answer := .next (s.setFb Display.blank)

/-- The origin's column, `V[x] mod 64` (R121). -/
def State.originCol (s : State) (x : Reg) : Nat := (s.reg x).toNat % Config.displayCols

/-- The origin's row, `V[y] mod 32` (R121). -/
def State.originRow (s : State) (y : Reg) : Nat := (s.reg y).toNat % Config.displayRows

/-- Steps 4 and 5 of R121: the blit of the sprite's bytes, then the flag, then the limiter. -/
def State.drawSprite (s : State) (x y : Reg) (sprite : List Byte) : State :=
  ((s.setFb (blitRows (s.originCol x) (s.originRow y) sprite ⟨s.fb, false⟩).fb).setFlag
    (blitRows (s.originCol x) (s.originRow y) sprite ⟨s.fb, false⟩).coll).setDrawn true

/-- DRW under either reading of a height of 0 (R121; parameter DRW_N0): the limiter first, then the bounds check of the whole
sprite, then the blit (log entries 6 and 14). -/
def drawInstr (policy : DrwN0) (x y : Reg) (n : Nibble) (s : State) : Answer :=
  if s.drawn then .next s.rewind
  else if policy = .fault ∧ n = 0 then raise .unspecifiedSpriteHeight s
  else orRaise ((s.readBytes (s.ea 0) n.toNat).map fun sprite => s.drawSprite x y sprite) .addressOverflow s

/-- DRW Vx,Vy,n (R121). -/
def execDrw (x y : Reg) (n : Nibble) (s : State) : Answer := drawInstr drwN0 x y n s

end Sys2Proof.Machine
end

