-- ==== Sys2Proof/Machine/IndexMemory.lean ====
section
/-! DEFINITION. The address register and data memory (spec 42_index_memory.md). -/

namespace Sys2Proof.Machine

/-- LD I,nnn (R110). -/
def execLdI (nnn : Addr) (s : State) : Answer := .next (s.setI (addrWord nnn))

/-- ADD I,Vx under either reading of a sum past 65535 (R111; parameter ADDI_WRAP). VF is not written. -/
def addIndex (policy : AddIWrap) (x : Reg) (s : State) : Answer :=
  if policy = .fault ∧ s.i.toNat + (s.reg x).toNat ≥ 65536 then raise .unspecifiedIndexWrap s
  else .next (s.setI (s.i + (s.reg x).setWidth 16))

/-- ADD I,Vx (R111). -/
def execAddI (x : Reg) (s : State) : Answer := addIndex addIWrap x s

/-- LD F,Vx (R112): the full 8-bit index times 5, no mask. -/
def execLdF (x : Reg) (s : State) : Answer :=
  .next (s.setI (BitVec.ofNat 16 (Config.fontBase + (s.reg x).toNat * Config.glyphBytes)))

/-- The three decimal digits of a byte, hundreds first, one digit a byte (R113). -/
def bcdDigits (v : Byte) : List Byte := [v / 100, v / 10 % 10, v % 10]

/-- LD B,Vx (R113): three bytes at `I`, all or none; `I` is unchanged. -/
def execLdB (x : Reg) (s : State) : Answer :=
  orRaise (s.writeBytes (s.ea 0) (bcdDigits (s.reg x))) .addressOverflow s

/-- `I <- I + x + 1`, after a block copy that succeeded (R114, R115). -/
def State.bumpI (s : State) (x : Reg) : State := s.setI (s.i + BitVec.ofNat 16 (x.val + 1))

/-- LD [I],Vx (R114). -/
def execLdMemVx (x : Reg) (s : State) : Answer :=
  orRaise ((s.writeBytes (s.ea 0) (s.firstRegs (x.val + 1))).map fun t => t.bumpI x) .addressOverflow s

/-- LD Vx,[I] (R115). -/
def execLdVxMem (x : Reg) (s : State) : Answer :=
  orRaise ((s.readBytes (s.ea 0) (x.val + 1)).map fun bs => (s.loadRegs 0 bs).bumpI x) .addressOverflow s

end Sys2Proof.Machine
end

