-- ==== Sys2Proof/Machine/TimersKeys.lean ====
section
/-! DEFINITION. The random, key and timer instructions (spec 44_timers_keys_random.md). -/

namespace Sys2Proof.Machine

/-- RND Vx,kk (R130): one fresh byte, masked. -/
def execRnd (x : Reg) (kk : Byte) (s : State) : Answer := .next (s.drawByte.2.setReg x (s.drawByte.1 &&& kk))

/-- Skip on a key's level, `down` the level that skips (R131, R132, R137). -/
def skipOnKey (down : Bool) (x : Reg) (s : State) : Answer :=
  orRaise ((s.keyIndex x).map fun k => s.skipIf (s.keysDown.get k == down)) .unspecifiedKeyIndex s

/-- SKP Vx (R131). -/
def execSkp (x : Reg) (s : State) : Answer := skipOnKey true x s

/-- SKNP Vx (R132). -/
def execSknp (x : Reg) (s : State) : Answer := skipOnKey false x s

/-- LD Vx,DT (R133). -/
def execLdVxDt (x : Reg) (s : State) : Answer := .next (s.setReg x s.dt)

/-- The run mode is written only where parameter KEYWAIT_MODE is on (R158). -/
def State.noteMode (s : State) (on : Bool) (m : Mode) : State := if on then s.setMode m else s

/-- LD Vx,K with or without the wait recorded in `mode` (R134, R158): no edge rewinds, an edge is consumed. -/
def waitKey (record : Bool) (x : Reg) (s : State) : Answer :=
  match s.keyRel with
  | none => .next (s.rewind.noteMode record .waitingKey)
  | some k => .next (((s.setReg x (BitVec.ofNat 8 k.val)).setKeyRel none).noteMode record .running)

/-- LD Vx,K (R134). -/
def execLdVxK (x : Reg) (s : State) : Answer := waitKey keyWaitMode x s

/-- LD DT,Vx (R135). -/
def execLdDtVx (x : Reg) (s : State) : Answer := .next (s.setDt (s.reg x))

/-- LD ST,Vx (R136). -/
def execLdStVx (x : Reg) (s : State) : Answer := .next (s.setSt (s.reg x))

end Sys2Proof.Machine
end

