-- ==== Sys2Proof/Machine/Step.lean ====
section
/-! DEFINITION. The Step event (R60), and placing one instruction where the next Step fetches. -/

namespace Sys2Proof.Machine

/-- One Step, every parameter at its default (R60). -/
def step (s : State) : Host.Outcome State Fault Refusal := stepOf decodeWord exec s

/-- The state with an address of two bytes inside memory in `pc`: unchanged when the fetch can succeed, else moved to the
program base, since no instruction can stand at 0xFFF or above (R60). -/
def State.withFetchablePc (s : State) : State :=
  if s.pc.toNat + 1 < Config.memSize then s else s.setPc (BitVec.ofNat 16 Config.progBase)

/-- The state with one instruction stored where the next Step fetches, high byte first (R43, R71). It stands for the host's
load of a program (log entry 16). -/
def State.withFetchWord (s : State) (nbits w : Nat) : State :=
  s.withFetchablePc.setMem
    (s.withFetchablePc.mem.writeList s.withFetchablePc.pc.toNat
      [highByte (BitVec.ofNat 16 (w % 2 ^ nbits)), lowByte (BitVec.ofNat 16 (w % 2 ^ nbits))])

end Sys2Proof.Machine
end

