-- ==== Sys2Proof/Machine/Configured.lean ====
section
/-! DEFINITION. The instruction rules and the Step at any values of the open parameters (R2). -/

namespace Sys2Proof.Machine

/-- The instruction rules at given parameters: three of them depend on one (R111, R121, R158). -/
def execWith (p : Parameters) (i : Instr) (s : State) : Answer :=
  match i with
  | .ldVxK x => waitKey p.keyWaitMode x s
  | .drw x y n => drawInstr p.drwN0 x y n s
  | .addI x => addIndex p.addIWrap x s
  | .cls | .ret | .jp _ | .call _ | .seImm _ _ | .sneImm _ _ | .seReg _ _ | .ldImm _ _ | .addImm _ _ | .ldReg _ _
  | .orReg _ _ | .andReg _ _ | .xorReg _ _ | .addReg _ _ | .sub _ _ | .shr _ _ | .subn _ _ | .shl _ _ | .sneReg _ _
  | .ldI _ | .jpV0 _ | .rnd _ _ | .skp _ | .sknp _ | .ldVxDt _ | .ldDtVx _ | .ldStVx _ | .ldF _ | .ldB _
  | .ldMemVx _ | .ldVxMem _ => exec i s

/-- One Step at given parameters, the opcode table among them (R60, R65, R2). -/
def stepWith (p : Parameters) (s : State) : Answer := stepOf (decodeWith p.opcodeTable) (execWith p) s

end Sys2Proof.Machine
end

