-- ==== Sys2Proof/Machine/HostEvents.lean ====
section
/-! DEFINITION. The host's events other than Step, each one atomic change of the state (R150 to R155, R170 to R172), and a
session: a machine driven by a sequence of events, with the host's duties checked (R150, R173). -/

namespace Sys2Proof.Machine

/-- A counter loses 1 and stops at 0 (R152, R16, R17). -/
def countDown (b : Byte) : Byte := if b = 0 then 0 else b - 1

/-- NewFrame (R152). -/
def State.newFrame (s : State) : State := ((s.setDt (countDown s.dt)).setSt (countDown s.st)).setDrawn false

/-- SetKey(k, b) (R153): no edge is made. -/
def State.setKey (s : State) (k : Key) (down : Bool) : State := s.setKeysDown (s.keysDown.set k.val down k.isLt)

/-- ReleaseKey(k) (R154): a pending edge is replaced (log entry 17). -/
def State.releaseKey (s : State) (k : Key) : State := s.setKeyRel (some k)

/-- ReadDisplay (R155). -/
def State.readDisplay (s : State) : Display := s.fb

/-- LoadFont (R171), the parameter FONT an argument. -/
def State.loadFont (s : State) (font : Vector Byte Config.fontBytes) : State :=
  s.setMem (s.mem.writeList Config.fontBase font.toList)

/-- LoadROM (R172); `none` for an image that is too long, which never reaches the core. -/
def State.loadRom (s : State) (image : List Byte) : Option State :=
  if imageWf image then some ((s.setMem (s.mem.writeList Config.progBase image)).setMode .running) else none

/-- The injection of a random source that will answer the next draws with these bytes (R151): not an event, it is done when
the machine is put together. -/
def State.injectRandom (s : State) (bytes : List Byte) : State := s.setRndIn bytes

/-- The host's events (R150). A key number is 0 to 15 by its type. -/
inductive HostEvent where
  | reset
  | loadFont (font : Vector Byte Config.fontBytes)
  | loadRom (image : List Byte)
  | setKey (k : Key) (down : Bool)
  | releaseKey (k : Key)
  | step
  | newFrame
  | readDisplay
deriving DecidableEq, Repr

/-- What an event gives back to the host. -/
inductive Reply where
  /-- The event has nothing to report. -/
  | done
  /-- A Step failed, and why (R140, R148). -/
  | failed (f : Fault)
  /-- The display as it stands (R155). -/
  | display (fb : Display)
deriving DecidableEq, Repr

/-- A machine in the host's hands: the core and what the host's duties depend on (R150, R173). -/
structure Session where
  core : State
  fontLoaded : Bool
  romLoaded : Bool
  stepped : Bool
  /-- A Step has failed; a claim about a run asks that none has (R149, R180). -/
  failed : Bool
deriving DecidableEq, Repr

/-- A machine just constructed: Reset has happened and nothing else (R170, R174). -/
def Session.fresh : Session := ⟨State.reset, false, false, false, false⟩

/-- A session after an event that changes only the core. -/
def Session.withCore (h : Session) (s : State) : Session := { h with core := s }

/-- What one event answers. -/
abbrev EventAnswer := Host.Outcome (Session × Reply) Fault Refusal

/-- The Step event in a session, at given parameters: a failure of the core is reported and the host may go on from the state
it leaves (R148, R149); a case with no meaning in the spec stops the run (R162). -/
def Session.stepEvent (h : Session) (p : Parameters := Parameters.default) : EventAnswer :=
  match stepWith p h.core with
  | .next s => .next ({ h with core := s, stepped := true }, .done)
  | .fault f =>
    match f.resume with
    | some s => .next ({ h with core := s, stepped := true, failed := true }, .failed f)
    | none => .fault f
  | .refused r => .refused r

/-- The LoadROM event in a session: at most once, before the first Step, and not too long (R172, R173). -/
def Session.loadRomEvent (h : Session) (image : List Byte) : EventAnswer :=
  if h.romLoaded || h.stepped then .refused .loadOutsideBoot
  else match h.core.loadRom image with
    | some s => .next ({ h with core := s, romLoaded := true }, .done)
    | none => .refused .romTooLong

/-- One event (R150) at given parameters, refused when it breaks a duty of the host (93_implementation_defined.md U13; log
entry 18). -/
def Session.event (h : Session) (e : HostEvent) (p : Parameters := Parameters.default) : EventAnswer :=
  match e with
  | .reset => .refused .resetAfterConstruction
  | .loadFont font =>
    if h.fontLoaded || h.stepped then .refused .loadOutsideBoot
    else .next ({ h with core := h.core.loadFont font, fontLoaded := true }, .done)
  | .loadRom image => h.loadRomEvent image
  | .setKey k down => .next (h.withCore (h.core.setKey k down), .done)
  | .releaseKey k => .next (h.withCore (h.core.releaseKey k), .done)
  | .step => h.stepEvent p
  | .newFrame => .next (h.withCore h.core.newFrame, .done)
  | .readDisplay => .next (h, .display h.core.readDisplay)

/-- A sequence of events, one after the other, in any order the host likes (R3, R150; 92_eei_decisions.md D37). -/
def Session.run (h : Session) (events : List HostEvent) (p : Parameters := Parameters.default) :
    Host.Outcome Session Fault Refusal :=
  match events with
  | [] => .next h
  | e :: rest =>
    match h.event e p with
    | .next (h', _) => Session.run h' rest p
    | .fault f => .fault f
    | .refused r => .refused r

/-- The conventional schedule of one frame: keys, then `n` Steps, then NewFrame, then ReadDisplay (R150; STEPS_PER_FRAME is
the argument `n`). No rule depends on it. -/
def frameEvents (n : Nat) (keys : List HostEvent) : List HostEvent :=
  keys ++ List.replicate n .step ++ [.newFrame, .readDisplay]

end Sys2Proof.Machine
end

