-- ==== Sys2Proof/Safety.lean ====
section
/-! DEFINITION. The terms claims are stated in: what a change leaves alone, the machine's invariant (R27), the wait states
(R158), the end of a run (R179) and the launch state (R180). -/

namespace Sys2Proof.Machine

/-- The pieces of state, for saying which ones a change leaves alone. -/
inductive Field where
  | v | pc | i | stack | sp | dt | st | mem | mode | fb | keysDown | keyRel | drawn | rnd
deriving DecidableEq, Repr

/-- A piece of state is the same in two states. Memory is compared through the read of every byte; `rnd` is both halves of
the random input. -/
def Kept (s t : State) : Field → Prop
  | .v => t.v = s.v
  | .pc => t.pc = s.pc
  | .i => t.i = s.i
  | .stack => t.stack = s.stack
  | .sp => t.sp = s.sp
  | .dt => t.dt = s.dt
  | .st => t.st = s.st
  | .mem => ∀ a, t.mem.read a = s.mem.read a
  | .mode => t.mode = s.mode
  | .fb => t.fb = s.fb
  | .keysDown => t.keysDown = s.keysDown
  | .keyRel => t.keyRel = s.keyRel
  | .drawn => t.drawn = s.drawn
  | .rnd => t.rndIn = s.rndIn ∧ t.draws = s.draws

/-- Every piece of state that is not listed is the same in both states. -/
def KeptBut (may : List Field) (s t : State) : Prop := ∀ f, f ∉ may → Kept s t f

/-- Every general register that is not listed is the same in both states. -/
def RegsKeptBut (may : List Reg) (s t : State) : Prop := ∀ r, r ∉ may → t.reg r = s.reg r

/-- The invariant of R27 that the types do not already give: `pc` is at most 0x1002, a held return address is at most 0x1000,
and memory is in canonical form inside the address space (the form is the model's own, log entry 21). -/
structure Inv (s : State) : Prop where
  pc_le : s.pc.toNat ≤ 0x1002
  held_le : ∀ k : Fin Config.stackDepth, k.val < s.sp.val → (s.stack.get k).toNat ≤ 0x1000
  mem_wf : s.mem.wf = true

/-- The pieces of state an instruction's rule may write, from the table of 10_state.md section 1 and rules R80 to R136;
everything else it leaves alone. -/
def mayWrite : Instr → List Field
  | .cls => [.fb]
  | .ret => [.pc, .sp]
  | .jp _ | .jpV0 _ => [.pc]
  | .call _ => [.pc, .stack, .sp]
  | .seImm _ _ | .sneImm _ _ | .seReg _ _ | .sneReg _ _ | .skp _ | .sknp _ => [.pc]
  | .ldImm _ _ | .addImm _ _ | .ldReg _ _ | .ldVxDt _ => [.v]
  | .orReg _ _ | .andReg _ _ | .xorReg _ _ | .addReg _ _ | .sub _ _ | .shr _ _ | .subn _ _ | .shl _ _ => [.v]
  | .ldI _ | .addI _ | .ldF _ => [.i]
  | .rnd _ _ => [.v, .rnd]
  | .drw _ _ _ => [.v, .fb, .drawn, .pc]
  | .ldVxK _ => [.v, .keyRel, .pc]
  | .ldDtVx _ => [.dt]
  | .ldStVx _ => [.st]
  | .ldB _ => [.mem]
  | .ldMemVx _ => [.mem, .i]
  | .ldVxMem _ => [.v, .i]

/-- The general registers an instruction's rule may write: its destination, and VF where R11 lists the instruction. -/
def mayWriteReg (r : Reg) : Instr → Prop
  | .ldImm x _ | .addImm x _ | .ldReg x _ | .rnd x _ | .ldVxDt x | .ldVxK x => r = x
  | .orReg x _ | .andReg x _ | .xorReg x _ | .addReg x _ | .sub x _ | .shr x _ | .subn x _ | .shl x _ => r = x ∨ r = 15
  | .drw _ _ _ => r = 15
  | .ldVxMem x => r ≤ x
  | .cls | .ret | .jp _ | .jpV0 _ | .call _ | .seImm _ _ | .sneImm _ _ | .seReg _ _ | .sneReg _ _ | .skp _ | .sknp _
  | .ldI _ | .addI _ | .ldF _ | .ldDtVx _ | .ldStVx _ | .ldB _ | .ldMemVx _ => False

/-- The sprite bit that falls on a pixel in a DRW that executes: `S[r][b]` where `vis(r, b)`, else 0 (R122, R123). -/
def State.spriteBitAt (s : State) (x y : Reg) (n : Nibble) (row col : Nat) : Bool :=
  decide (s.originRow y ≤ row ∧ row < s.originRow y + n.toNat ∧ s.originCol x ≤ col ∧ col < s.originCol x + 8) &&
    (s.mem.read (s.ea (row - s.originRow y))).getLsbD (7 - (col - s.originCol x))

/-- The word of a number decodes to an instruction. -/
def DecodesTo (w : Nat) (i : Instr) : Prop := decodeWord (BitVec.ofNat 16 w) = .ok i

/-- The instruction the next Step will execute, when the fetch and the dispatch succeed (R60). -/
def State.nextInstr (s : State) : Option Instr :=
  match s.fetchWord with
  | none => none
  | some w =>
    match decodeWord w with
    | .ok i => some i
    | .error _ => none

/-- The key wait (R158): the word at `pc` decodes to LD Vx,K and no edge is pending. -/
def State.keyWait (s : State) : Prop := (∃ x, s.nextInstr = some (.ldVxK x)) ∧ s.keyRel = none

/-- The draw wait (R158): the word at `pc` decodes to DRW and a DRW has executed in this frame. -/
def State.drawWait (s : State) : Prop := (∃ x y n, s.nextInstr = some (.drw x y n)) ∧ s.drawn = true

/-- The word at `pc` is a jump to `pc` itself (R179). It marks the end of a run only in a state that a successful Step has
reached: see `Session.endOfRun`. -/
def State.jumpsToItself (s : State) : Bool :=
  decide (s.pc.toNat < Config.memSize) && s.fetchWord == some (0x1000 ||| s.pc)

/-- The end of a run (R179; log entry 25): the session at the first state, reached after a successful Step, in which the word
at `pc` is a jump to itself; `none` when these events reach none. A state that no Step has reached yet, and one that a failed
Step has reached, is no end. -/
def Session.endOfRun (h : Session) (events : List HostEvent) (p : Parameters := Parameters.default) : Option Session :=
  match events with
  | [] => none
  | e :: rest =>
    match h.event e p with
    | .next (h', r) =>
      if e = .step ∧ r = .done ∧ h'.core.jumpsToItself = true then some h' else Session.endOfRun h' rest p
    | .fault _ => none
    | .refused _ => none

/-- The state a program starts from (R180): after Reset, LoadFont and LoadROM; `none` for an image that is too long. -/
def launch (font : Vector Byte Config.fontBytes) (image : List Byte) : Option State :=
  (State.reset.loadFont font).loadRom image

end Sys2Proof.Machine
end

