-- ==== Sys2Proof/Certificates/Slice0/Obligations.lean ====
section
/-! DEFINITION. What the provers are asked to prove of the machine, file by file of the spec's rules. -/

open Sys2Proof Sys2Proof.Machine

/-! ### Encoding and decoding (30_encoding.md) -/

/-- Decoding the two bytes of an instruction gives it back, whatever its operands, and leaves the bytes after it (R61, R62,
R65, R71). The opcode numbers are the spec's assumption (R68, log entry 2); the round trip holds whatever they are. -/
def Obligations.DecodeOfEncodeIsTheInstruction : Prop :=
  ∀ (i : Instr) (rest : List Byte), decodeBytes (encodeBytes i ++ rest) = .ok (i, rest)

/-- Each word has one meaning: the word that decodes to an instruction is the word that encodes it (R65: no two rows match the
same word). -/
def Obligations.EncodeOfDecodeIsTheWord : Prop :=
  ∀ (w : Word) (i : Instr), decodeWord w = .ok i → encode i = w

/-- The invalid words are those of R66's table, class by class; the strict decode is the spec's decision D8 (log entry 3) and
the numbers are its assumption (log entry 2). -/
def Obligations.InvalidWordsAreThoseOfTheTable : Prop :=
  ∀ w : Word, decodeWord w = .error (.invalidInstruction w) ↔
    ((w.toNat / 0x1000 = 0 ∧ w.toNat ≠ 0x00E0 ∧ w.toNat ≠ 0x00EE) ∨
     (w.toNat / 0x1000 = 5 ∧ w.toNat % 16 ≠ 0) ∨
     (w.toNat / 0x1000 = 8 ∧ w.toNat % 16 ∈ [0x8, 0x9, 0xA, 0xB, 0xC, 0xD, 0xF]) ∨
     (w.toNat / 0x1000 = 9 ∧ w.toNat % 16 ≠ 0) ∨
     (w.toNat / 0x1000 = 0xE ∧ w.toNat % 256 ∉ [0x9E, 0xA1]) ∨
     (w.toNat / 0x1000 = 0xF ∧ w.toNat % 256 ∉ [0x07, 0x0A, 0x15, 0x18, 0x1E, 0x29, 0x33, 0x55, 0x65]))

/-- The opcode map, row by row, as numbers: every operand at every value (R61, R63, R65). All numbers but the class digits 6
and 7 are the spec's assumption (R68, log entry 2). -/
def Obligations.OpcodeMapDecodesEveryRow : Prop :=
  DecodesTo 0x00E0 .cls ∧ DecodesTo 0x00EE .ret ∧
  (∀ nnn : Addr,
    DecodesTo (0x1000 + nnn.toNat) (.jp nnn) ∧ DecodesTo (0x2000 + nnn.toNat) (.call nnn) ∧
    DecodesTo (0xA000 + nnn.toNat) (.ldI nnn) ∧ DecodesTo (0xB000 + nnn.toNat) (.jpV0 nnn)) ∧
  (∀ (x : Reg) (kk : Byte),
    DecodesTo (0x3000 + 0x100 * x.val + kk.toNat) (.seImm x kk) ∧ DecodesTo (0x4000 + 0x100 * x.val + kk.toNat) (.sneImm x kk) ∧
    DecodesTo (0x6000 + 0x100 * x.val + kk.toNat) (.ldImm x kk) ∧ DecodesTo (0x7000 + 0x100 * x.val + kk.toNat) (.addImm x kk) ∧
    DecodesTo (0xC000 + 0x100 * x.val + kk.toNat) (.rnd x kk)) ∧
  (∀ x y : Reg,
    DecodesTo (0x5000 + 0x100 * x.val + 0x10 * y.val) (.seReg x y) ∧ DecodesTo (0x9000 + 0x100 * x.val + 0x10 * y.val) (.sneReg x y) ∧
    DecodesTo (0x8000 + 0x100 * x.val + 0x10 * y.val) (.ldReg x y) ∧ DecodesTo (0x8001 + 0x100 * x.val + 0x10 * y.val) (.orReg x y) ∧
    DecodesTo (0x8002 + 0x100 * x.val + 0x10 * y.val) (.andReg x y) ∧ DecodesTo (0x8003 + 0x100 * x.val + 0x10 * y.val) (.xorReg x y) ∧
    DecodesTo (0x8004 + 0x100 * x.val + 0x10 * y.val) (.addReg x y) ∧ DecodesTo (0x8005 + 0x100 * x.val + 0x10 * y.val) (.sub x y) ∧
    DecodesTo (0x8006 + 0x100 * x.val + 0x10 * y.val) (.shr x y) ∧ DecodesTo (0x8007 + 0x100 * x.val + 0x10 * y.val) (.subn x y) ∧
    DecodesTo (0x800E + 0x100 * x.val + 0x10 * y.val) (.shl x y)) ∧
  (∀ (x y : Reg) (n : Nibble), DecodesTo (0xD000 + 0x100 * x.val + 0x10 * y.val + n.toNat) (.drw x y n)) ∧
  (∀ x : Reg,
    DecodesTo (0xE09E + 0x100 * x.val) (.skp x) ∧ DecodesTo (0xE0A1 + 0x100 * x.val) (.sknp x) ∧
    DecodesTo (0xF007 + 0x100 * x.val) (.ldVxDt x) ∧ DecodesTo (0xF00A + 0x100 * x.val) (.ldVxK x) ∧
    DecodesTo (0xF015 + 0x100 * x.val) (.ldDtVx x) ∧ DecodesTo (0xF018 + 0x100 * x.val) (.ldStVx x) ∧
    DecodesTo (0xF01E + 0x100 * x.val) (.addI x) ∧ DecodesTo (0xF029 + 0x100 * x.val) (.ldF x) ∧
    DecodesTo (0xF033 + 0x100 * x.val) (.ldB x) ∧ DecodesTo (0xF055 + 0x100 * x.val) (.ldMemVx x) ∧
    DecodesTo (0xF065 + 0x100 * x.val) (.ldVxMem x))

/-- The words the spec writes out: the source's own two (X1) and some of the decode vectors of 95_test_vectors.md section 3. -/
def Obligations.WordsOfTheSpecDecode : Prop :=
  DecodesTo 0x6A05 (.ldImm 10 0x05) ∧ DecodesTo 0x7A03 (.addImm 10 0x03) ∧ DecodesTo 0x1234 (.jp 0x234) ∧
  DecodesTo 0x5120 (.seReg 1 2) ∧ DecodesTo 0x8AB6 (.shr 10 11) ∧ DecodesTo 0x8ABE (.shl 10 11) ∧
  DecodesTo 0xB300 (.jpV0 0x300) ∧ DecodesTo 0xD12F (.drw 1 2 15) ∧ DecodesTo 0xE39E (.skp 3) ∧
  DecodesTo 0xF50A (.ldVxK 5) ∧ DecodesTo 0xFF65 (.ldVxMem 15) ∧
  (∀ i, ¬ DecodesTo 0x5121 i) ∧ (∀ i, ¬ DecodesTo 0x8AB8 i) ∧ (∀ i, ¬ DecodesTo 0xF01F i)

/-! ### The Step (R60) and its failures (60_exceptions.md) -/

/-- One Step: it fails at the fetch when byte `pc + 1` is at 0x1000 or above and then nothing has changed; else it reads the
big-endian word at `pc`, advances `pc` by 2, and runs the instruction the word decodes to, or fails with InvalidInstruction.
That a fetch at 0xFFF fails is the spec's decision D31, and that `pc` keeps its advance is D2 (log entry 10). -/
def Obligations.StepRunsTheDecodedInstruction : Prop :=
  ∀ s : State,
    (0x1000 ≤ s.pc.toNat + 1 → step s = .fault (.addressOverflow s)) ∧
    (s.pc.toNat + 1 < 0x1000 → ∀ w : Word,
      w.toNat = 256 * (s.mem.read s.pc.toNat).toNat + (s.mem.read (s.pc.toNat + 1)).toNat →
      (∀ i, decodeWord w = .ok i → step s = exec i (s.setPc (s.pc + 2))) ∧
      (decodeWord w = .error (.invalidInstruction w) → step s = .fault (.invalidInstruction (s.setPc (s.pc + 2)))))

/-- An instruction fails exactly in the cases of R141 to R144 and R162, with the kind they give and the state it was given
left behind, and it is never refused. A missing line is an instruction that cannot fail. Rests on decisions D13, D14 and D17
of the spec for DRW, SKP and SKNP (log entries 4 and 14). -/
def Obligations.InstructionsFailExactlyAsListed : Prop :=
  ∀ (i : Instr) (s : State),
    (∀ f : Fault, exec i s = .fault f ↔
      ((∃ nnn, i = .call nnn) ∧ s.sp.val = 24 ∧ f = .stackOverflow s) ∨
      (i = .ret ∧ s.sp.val = 0 ∧ f = .stackUnderflow s) ∨
      ((∃ nnn, i = .jpV0 nnn ∧ 0x1000 ≤ nnn.toNat + (s.reg 0).toNat) ∧ f = .addressOverflow s) ∨
      ((∃ x, i = .ldB x) ∧ 0x1000 ≤ s.i.toNat + 2 ∧ f = .addressOverflow s) ∨
      ((∃ x, (i = .ldMemVx x ∨ i = .ldVxMem x) ∧ 0x1000 ≤ s.i.toNat + x.val) ∧ f = .addressOverflow s) ∨
      ((∃ x y n, i = .drw x y n ∧ s.drawn = false ∧ 1 ≤ n.toNat ∧ 0x1000 ≤ s.i.toNat + n.toNat - 1) ∧ f = .addressOverflow s) ∨
      ((∃ x, (i = .skp x ∨ i = .sknp x) ∧ 16 ≤ (s.reg x).toNat) ∧ f = .unspecifiedKeyIndex s)) ∧
    (∀ r : Refusal, exec i s ≠ .refused r)

/-- What a failed Step leaves: after a fetch failure the state as it was, after any other the state as it was but for the
advanced `pc` (R145; the advance is the spec's decision D2, log entry 10). -/
def Obligations.FailedStepLeavesStateUnchanged : Prop :=
  ∀ (s : State) (f : Fault), step s = .fault f →
    (0x1000 ≤ s.pc.toNat + 1 → f.left = s ∧ f.code = some 4) ∧
    (s.pc.toNat + 1 < 0x1000 → f.left = s.setPc (s.pc + 2))

/-! ### Reset, invariants and whole-machine rules (10_state.md, 70_reset_and_hazards.md) -/

/-- The reset values of R26. That they cover the display, the keys, the edge and the limiter is the spec's decision D34 (log
entry 20). -/
def Obligations.ResetValuesAreThoseOfTheTable : Prop :=
  (∀ r, State.reset.reg r = 0) ∧ State.reset.pc = 0x200 ∧ State.reset.i = 0 ∧
  (∀ k, State.reset.stack.get k = 0) ∧ State.reset.sp.val = 0 ∧ State.reset.dt = 0 ∧ State.reset.st = 0 ∧
  (∀ a, State.reset.mem.read a = 0) ∧ State.reset.mode = .stopped ∧
  (∀ row col, row < 32 → col < 64 → Display.pixel State.reset.fb row col = false) ∧
  (∀ k, State.reset.keysDown.get k = false) ∧ State.reset.keyRel = none ∧ State.reset.drawn = false

/-- The invariant holds after Reset: the bounds of R27, and the canonical form of memory, which is the model's own (DESIGN
CHOICE, log entry 21). -/
def Obligations.ResetMeetsTheInvariant : Prop := Inv State.reset

/-- Every Step keeps the invariant of R27 (an inference the spec marks as derived): `pc` at most 0x1002, held return addresses
at most 0x1000; and memory stays canonical and inside the address space, a form that is the model's own (DESIGN CHOICE, log
entry 21). -/
def Obligations.StepKeepsTheInvariant : Prop :=
  ∀ s t : State, Inv s → step s = .next t → Inv t

/-- Every host event keeps the invariant, from every session that meets it and at any values of the open parameters, a Step
that fails and is answered among them; a machine just constructed meets it; so every session a machine reaches does (R27, R2,
R149, R150). The canonical form of memory in it is the model's own (DESIGN CHOICE, log entry 21). -/
def Obligations.EverySessionMeetsTheInvariant : Prop :=
  (∀ (p : Parameters) (h h' : Session) (e : HostEvent) (r : Reply),
    Inv h.core → h.event e p = .next (h', r) → Inv h'.core) ∧
  Inv Session.fresh.core ∧
  ∀ (p : Parameters) (events : List HostEvent) (h : Session), Session.fresh.run events p = .next h → Inv h.core

/-- Which pieces of state, and which registers, each of the 34 instructions may write: everything else is unchanged whenever it
completes (the table of 10_state.md section 1; R11, R14 to R19, R22 to R24). With the default KEYWAIT_MODE no instruction
writes `mode` (R158, decision D11, log entry 5). -/
def Obligations.InstructionsWriteOnlyTheirOwnState : Prop :=
  ∀ (i : Instr) (s t : State), exec i s = .next t →
    KeptBut (mayWrite i) s t ∧ ∀ r, ¬ mayWriteReg r i → t.reg r = s.reg r

/-- The Step does not read the run mode and does not write it: from a state with another mode it does the same and leaves
that mode in place (R158; decision D11 of the spec, log entry 5). For RND the two Steps compared get the same random byte,
which is the model's choice of where the random input stands (DESIGN CHOICE, log entry 1). -/
def Obligations.StepIgnoresTheRunMode : Prop :=
  ∀ (s : State) (m : Mode),
    (∀ t, step s = .next t → t.mode = s.mode ∧ step (s.setMode m) = .next (t.setMode m)) ∧
    (∀ f, step s = .fault f → ∃ g, step (s.setMode m) = .fault g ∧ g.left = f.left.setMode m ∧ g.code = f.code)

/-- In a wait state a Step makes no progress: it succeeds and changes nothing at all (the table of R158; R175, R176;
decision D11 of the spec for the key wait). -/
def Obligations.WaitStatesMakeNoProgress : Prop :=
  ∀ s : State, s.keyWait ∨ s.drawWait → step s = .next s

/-- Where the word at `pc` is a jump to itself, a Step changes nothing; so it is at the end of a run (R179; decision D27 of the
spec, log entry 25). -/
def Obligations.EndOfRunIsAFixedPoint : Prop :=
  (∀ s : State, s.jumpsToItself = true → step s = .next s) ∧
  ∀ (start : Session) (events : List HostEvent) (h : Session), start.endOfRun events = some h → step h.core = .next h.core

/-- After a DRW has executed, no sequence of events without a NewFrame clears the limiter or sets a pixel: at most one DRW
executes between two NewFrame events, and only CLS still writes the display (R175, R19, R22; decision D33 of the spec for
CLS, log entry 15). -/
def Obligations.AtMostOneDrawBetweenFrames : Prop :=
  ∀ (events : List HostEvent) (h h' : Session), h.core.drawn = true → HostEvent.newFrame ∉ events →
    h.run events = .next h' →
    h'.core.drawn = true ∧
    ∀ row col, Display.pixel h'.core.fb row col = true → Display.pixel h.core.fb row col = true

/-! ### Control transfer (40_control_flow.md) -/

/-- RET (R80): pops the entry the cursor names into `pc`, the entry keeps its value (decision D29 of the spec), and nothing
checks it (D35; log entry 9); an empty stack is StackUnderflow. -/
def Obligations.RetPopsTheReturnAddress : Prop :=
  ∀ s : State,
    (s.sp.val = 0 → exec .ret s = .fault (.stackUnderflow s)) ∧
    (0 < s.sp.val → ∃ t, exec .ret s = .next t ∧ t.sp.val + 1 = s.sp.val ∧
      (∀ k, k.val = t.sp.val → t.pc = s.stack.get k) ∧ KeptBut [.pc, .sp] s t)

/-- JP nnn (R81): `pc` becomes the address, zero-extended; it cannot fail. -/
def Obligations.JpSetsThePc : Prop :=
  ∀ (nnn : Addr) (s : State), ∃ t, exec (.jp nnn) s = .next t ∧ t.pc.toNat = nnn.toNat ∧ KeptBut [.pc] s t

/-- CALL nnn (R82): pushes the advanced `pc`, moves the cursor up and jumps; a full stack is StackOverflow and nothing is
written. -/
def Obligations.CallPushesTheAdvancedPc : Prop :=
  ∀ (nnn : Addr) (s : State),
    (s.sp.val = 24 → exec (.call nnn) s = .fault (.stackOverflow s)) ∧
    (s.sp.val < 24 → ∃ t, exec (.call nnn) s = .next t ∧ t.pc.toNat = nnn.toNat ∧ t.sp.val = s.sp.val + 1 ∧
      (∀ k, t.stack.get k = if k.val = s.sp.val then s.pc else s.stack.get k) ∧ KeptBut [.pc, .stack, .sp] s t)

/-- RET resumes at the instruction after the CALL, and leaves the depth as it was (R82, R80). -/
def Obligations.RetUndoesCall : Prop :=
  ∀ (nnn : Addr) (s : State), s.sp.val < 24 →
    ∃ t u, exec (.call nnn) s = .next t ∧ exec .ret t = .next u ∧ u.pc = s.pc ∧ u.sp = s.sp

/-- SE Vx,kk (R83): advances `pc` past the next instruction exactly when the register equals the immediate. -/
def Obligations.SeImmediateSkipsOnEqual : Prop :=
  ∀ (x : Reg) (kk : Byte) (s : State), ∃ t, exec (.seImm x kk) s = .next t ∧
    (s.reg x = kk → t.pc = s.pc + 2) ∧ (s.reg x ≠ kk → t.pc = s.pc) ∧ KeptBut [.pc] s t

/-- SNE Vx,kk (R84): advances `pc` past the next instruction exactly when the register differs from the immediate. -/
def Obligations.SneImmediateSkipsOnDifferent : Prop :=
  ∀ (x : Reg) (kk : Byte) (s : State), ∃ t, exec (.sneImm x kk) s = .next t ∧
    (s.reg x ≠ kk → t.pc = s.pc + 2) ∧ (s.reg x = kk → t.pc = s.pc) ∧ KeptBut [.pc] s t

/-- SE Vx,Vy (R85): advances `pc` past the next instruction exactly when the registers are equal; `x = y` always skips. -/
def Obligations.SeRegisterSkipsOnEqual : Prop :=
  ∀ (x y : Reg) (s : State), ∃ t, exec (.seReg x y) s = .next t ∧
    (s.reg x = s.reg y → t.pc = s.pc + 2) ∧ (s.reg x ≠ s.reg y → t.pc = s.pc) ∧ (x = y → t.pc = s.pc + 2) ∧
    KeptBut [.pc] s t

/-- SNE Vx,Vy (R86): advances `pc` past the next instruction exactly when the registers differ; `x = y` never skips. -/
def Obligations.SneRegisterSkipsOnDifferent : Prop :=
  ∀ (x y : Reg) (s : State), ∃ t, exec (.sneReg x y) s = .next t ∧
    (s.reg x ≠ s.reg y → t.pc = s.pc + 2) ∧ (s.reg x = s.reg y → t.pc = s.pc) ∧ (x = y → t.pc = s.pc) ∧
    KeptBut [.pc] s t

/-- JP V0,nnn (R87): the target is the unreduced sum `nnn + V[0]`; at 0x1000 or above it is AddressOverflow. -/
def Obligations.JpV0AddsRegisterZero : Prop :=
  ∀ (nnn : Addr) (s : State),
    (nnn.toNat + (s.reg 0).toNat < 0x1000 →
      ∃ t, exec (.jpV0 nnn) s = .next t ∧ t.pc.toNat = nnn.toNat + (s.reg 0).toNat ∧ KeptBut [.pc] s t) ∧
    (0x1000 ≤ nnn.toNat + (s.reg 0).toNat → exec (.jpV0 nnn) s = .fault (.addressOverflow s))

/-! ### Registers, arithmetic, logic, shift (41_arith_logic.md) -/

/-- LD Vx,kk (R91): sets the register, VF like any other, and writes no flag; class digit 6 is the source's own. -/
def Obligations.LdImmediateSetsTheRegister : Prop :=
  ∀ (x : Reg) (kk : Byte), DecodesTo (0x6000 + 0x100 * x.val + kk.toNat) (.ldImm x kk) ∧
    ∀ s : State, ∃ t, exec (.ldImm x kk) s = .next t ∧ t.reg x = kk ∧ RegsKeptBut [x] s t ∧ KeptBut [.v] s t

/-- ADD Vx,kk (R92): the sum modulo 256, no flag; class digit 7 is the source's own. -/
def Obligations.AddImmediateWrapsWithoutFlag : Prop :=
  ∀ (x : Reg) (kk : Byte), DecodesTo (0x7000 + 0x100 * x.val + kk.toNat) (.addImm x kk) ∧
    ∀ s : State, ∃ t, exec (.addImm x kk) s = .next t ∧ (t.reg x).toNat = ((s.reg x).toNat + kk.toNat) % 256 ∧
      RegsKeptBut [x] s t ∧ KeptBut [.v] s t

/-- LD Vx,Vy (R93): copies the register and writes no flag. -/
def Obligations.LdRegisterCopies : Prop :=
  ∀ (x y : Reg) (s : State), ∃ t, exec (.ldReg x y) s = .next t ∧ t.reg x = s.reg y ∧
    RegsKeptBut [x] s t ∧ KeptBut [.v] s t

/-- OR, AND, XOR Vx,Vy (R94, R95, R96): bitwise on the operands as they were, then VF is 0, also when `x` is 15 (the order is
the rules' pseudocode; decision D10 of the spec, log entry 12). -/
def Obligations.LogicClearsTheFlag : Prop :=
  ∀ (x y : Reg) (s : State),
    (∃ t, exec (.orReg x y) s = .next t ∧ (x ≠ 15 → ∀ b, (t.reg x).getLsbD b = ((s.reg x).getLsbD b || (s.reg y).getLsbD b)) ∧
      t.reg 15 = 0 ∧ RegsKeptBut [x, 15] s t ∧ KeptBut [.v] s t) ∧
    (∃ t, exec (.andReg x y) s = .next t ∧ (x ≠ 15 → ∀ b, (t.reg x).getLsbD b = ((s.reg x).getLsbD b && (s.reg y).getLsbD b)) ∧
      t.reg 15 = 0 ∧ RegsKeptBut [x, 15] s t ∧ KeptBut [.v] s t) ∧
    (∃ t, exec (.xorReg x y) s = .next t ∧ (x ≠ 15 → ∀ b, (t.reg x).getLsbD b = ((s.reg x).getLsbD b ^^ (s.reg y).getLsbD b)) ∧
      t.reg 15 = 0 ∧ RegsKeptBut [x, 15] s t ∧ KeptBut [.v] s t)

/-- ADD Vx,Vy (R97): the sum modulo 256; VF is 1 exactly when the true sum is above 255, and with `x = 15` it ends as the
carry (decision D10 of the spec, log entry 12). -/
def Obligations.AddSetsTheCarry : Prop :=
  ∀ (x y : Reg) (s : State), ∃ t, exec (.addReg x y) s = .next t ∧
    (x ≠ 15 → (t.reg x).toNat = ((s.reg x).toNat + (s.reg y).toNat) % 256) ∧
    (t.reg 15).toNat = (if (s.reg x).toNat + (s.reg y).toNat > 255 then 1 else 0) ∧
    RegsKeptBut [x, 15] s t ∧ KeptBut [.v] s t

/-- SUB Vx,Vy (R98): the difference modulo 256; VF is 1 exactly when there is no borrow, equal operands included. -/
def Obligations.SubSetsNotBorrow : Prop :=
  ∀ (x y : Reg) (s : State), ∃ t, exec (.sub x y) s = .next t ∧
    (x ≠ 15 → (t.reg x).toNat = ((s.reg x).toNat + 256 - (s.reg y).toNat) % 256) ∧
    (t.reg 15).toNat = (if (s.reg x).toNat ≥ (s.reg y).toNat then 1 else 0) ∧
    RegsKeptBut [x, 15] s t ∧ KeptBut [.v] s t

/-- SHR Vx,Vy (R99): half of `V[y]` into `V[x]`; VF is the bit shifted out of `V[y]`. -/
def Obligations.ShrShiftsRegisterY : Prop :=
  ∀ (x y : Reg) (s : State), ∃ t, exec (.shr x y) s = .next t ∧
    (x ≠ 15 → (t.reg x).toNat = (s.reg y).toNat / 2) ∧ (t.reg 15).toNat = (s.reg y).toNat % 2 ∧
    RegsKeptBut [x, 15] s t ∧ KeptBut [.v] s t

/-- SUBN Vx,Vy (R100): `V[y] - V[x]` modulo 256; VF is 1 exactly when there is no borrow. -/
def Obligations.SubnSetsNotBorrow : Prop :=
  ∀ (x y : Reg) (s : State), ∃ t, exec (.subn x y) s = .next t ∧
    (x ≠ 15 → (t.reg x).toNat = ((s.reg y).toNat + 256 - (s.reg x).toNat) % 256) ∧
    (t.reg 15).toNat = (if (s.reg y).toNat ≥ (s.reg x).toNat then 1 else 0) ∧
    RegsKeptBut [x, 15] s t ∧ KeptBut [.v] s t

/-- SHL Vx,Vy (R101): twice `V[y]` modulo 256 into `V[x]`; VF is the bit shifted out of `V[y]`. -/
def Obligations.ShlShiftsRegisterY : Prop :=
  ∀ (x y : Reg) (s : State), ∃ t, exec (.shl x y) s = .next t ∧
    (x ≠ 15 → (t.reg x).toNat = 2 * (s.reg y).toNat % 256) ∧ (t.reg 15).toNat = (s.reg y).toNat / 128 ∧
    RegsKeptBut [x, 15] s t ∧ KeptBut [.v] s t

/-! ### Address register and memory (42_index_memory.md) -/

/-- LD I,nnn (R110): `I` becomes the address, zero-extended. -/
def Obligations.LdISetsTheAddressRegister : Prop :=
  ∀ (nnn : Addr) (s : State), ∃ t, exec (.ldI nnn) s = .next t ∧ t.i.toNat = nnn.toNat ∧ KeptBut [.i] s t

/-- ADD I,Vx (R111): the sum modulo 65536, no flag; the wrap and the untouched VF are the spec's decision D19 (log entry 7). -/
def Obligations.AddIWrapsWithoutFlag : Prop :=
  ∀ (x : Reg) (s : State), ∃ t, exec (.addI x) s = .next t ∧
    t.i.toNat = (s.i.toNat + (s.reg x).toNat) % 65536 ∧ KeptBut [.i] s t

/-- LD F,Vx (R112): `I` becomes five times the register, unmasked (decision D18 of the spec, log entry 19). -/
def Obligations.LdFPointsAtTheGlyph : Prop :=
  ∀ (x : Reg) (s : State), ∃ t, exec (.ldF x) s = .next t ∧ t.i.toNat = (s.reg x).toNat * 5 ∧ KeptBut [.i] s t

/-- LD B,Vx (R113): the three decimal digits of the register at `I`, `I + 1`, `I + 2`, each a byte 0 to 9; every other byte and
`I` stay. Beyond the address space it is AddressOverflow and no byte is written. The bytes are read back in a canonical
memory, an invariant of the machine. -/
def Obligations.LdBStoresDecimalDigits : Prop :=
  ∀ (x : Reg) (s : State),
    (s.i.toNat + 2 < 0x1000 → s.mem.wf = true → ∃ t, exec (.ldB x) s = .next t ∧
      (t.mem.read (s.ea 0)).toNat = (s.reg x).toNat / 100 ∧
      (t.mem.read (s.ea 1)).toNat = (s.reg x).toNat / 10 % 10 ∧
      (t.mem.read (s.ea 2)).toNat = (s.reg x).toNat % 10 ∧
      (∀ a, a ≠ s.ea 0 → a ≠ s.ea 1 → a ≠ s.ea 2 → t.mem.read a = s.mem.read a) ∧ KeptBut [.mem] s t) ∧
    (0x1000 ≤ s.i.toNat + 2 → exec (.ldB x) s = .fault (.addressOverflow s))

/-- LD [I],Vx (R114): `V[k]` to `I + k` for `k` up to `x`, then `I` moves past them; every other byte stays. The pairing of
`V[k]` with `I + k` is the spec's decision D38 (log entry 11). -/
def Obligations.BlockStoreWritesTheRegisters : Prop :=
  ∀ (x : Reg) (s : State),
    (s.i.toNat + x.val < 0x1000 → s.mem.wf = true → ∃ t, exec (.ldMemVx x) s = .next t ∧
      (∀ k : Reg, k ≤ x → t.mem.read (s.ea k.val) = s.reg k) ∧
      (∀ a, (∀ k : Reg, k ≤ x → a ≠ s.ea k.val) → t.mem.read a = s.mem.read a) ∧
      t.i.toNat = s.i.toNat + x.val + 1 ∧ KeptBut [.mem, .i] s t) ∧
    (0x1000 ≤ s.i.toNat + x.val → exec (.ldMemVx x) s = .fault (.addressOverflow s))

/-- LD Vx,[I] (R115): `V[k]` from `I + k` for `k` up to `x`, VF like any other, then `I` moves past them; the registers above
`x` and all of memory stay. The pairing is the spec's decision D38 (log entry 11). -/
def Obligations.BlockLoadReadsTheRegisters : Prop :=
  ∀ (x : Reg) (s : State),
    (s.i.toNat + x.val < 0x1000 → ∃ t, exec (.ldVxMem x) s = .next t ∧
      (∀ k : Reg, t.reg k = if k ≤ x then s.mem.read (s.ea k.val) else s.reg k) ∧
      t.i.toNat = s.i.toNat + x.val + 1 ∧ KeptBut [.v, .i] s t) ∧
    (0x1000 ≤ s.i.toNat + x.val → exec (.ldVxMem x) s = .fault (.addressOverflow s))

/-- A block store and then a block load of the same run bring the stored registers back, whatever the registers hold in
between (R114, R115; 92_eei_decisions.md D38: a round trip under either pairing). -/
def Obligations.BlockLoadUndoesBlockStore : Prop :=
  ∀ (x : Reg) (s : State) (other : Vector Byte 16), s.i.toNat + x.val < 0x1000 → s.mem.wf = true →
    ∃ t u, exec (.ldMemVx x) s = .next t ∧ exec (.ldVxMem x) ({ t with v := other }.setI s.i) = .next u ∧
      (∀ k : Reg, k ≤ x → u.reg k = s.reg k) ∧ u.i = t.i

/-! ### Display (43_display.md) -/

/-- CLS (R120): every pixel is cleared and nothing else changes, the limiter included (decision D33 of the spec, log
entry 15). -/
def Obligations.ClsClearsEveryPixel : Prop :=
  ∀ s : State, ∃ t, exec .cls s = .next t ∧ (∀ row col, Display.pixel t.fb row col = false) ∧ KeptBut [.fb] s t

/-- DRW that executes, in the closed form of R123 (the spec marks it derived): each pixel under a visible sprite bit is XORed
with it, every other pixel stays, VF is 1 exactly when a set pixel met a 1 bit, and the limiter is set. The bit order is the
spec's decision D16, the flag's place D10, the bounds check D13 and the height 0 D15 (log entries 6, 12, 13, 14). -/
def Obligations.DrwXorsTheSpriteAndReportsCollision : Prop :=
  ∀ (x y : Reg) (n : Nibble) (s : State), s.drawn = false → (n.toNat = 0 ∨ s.i.toNat + n.toNat - 1 < 0x1000) →
    ∃ t, exec (.drw x y n) s = .next t ∧
      (∀ row col, row < 32 → col < 64 →
        Display.pixel t.fb row col = (Display.pixel s.fb row col ^^ s.spriteBitAt x y n row col)) ∧
      ((∃ row col, row < 32 ∧ col < 64 ∧ s.spriteBitAt x y n row col = true ∧ Display.pixel s.fb row col = true) →
        t.reg 15 = 1) ∧
      ((¬ ∃ row col, row < 32 ∧ col < 64 ∧ s.spriteBitAt x y n row col = true ∧ Display.pixel s.fb row col = true) →
        t.reg 15 = 0) ∧
      t.drawn = true ∧ RegsKeptBut [15] s t ∧ KeptBut [.v, .fb, .drawn] s t

/-- DRW held by the limiter (R121, R175): it succeeds, rewinds `pc` by 2 and reads and writes nothing else, a sprite out of
range included (decision D14 of the spec, log entry 14). Otherwise a sprite that passes 0x0FFF is AddressOverflow. -/
def Obligations.DrwStallsOrOverflows : Prop :=
  ∀ (x y : Reg) (n : Nibble) (s : State),
    (s.drawn = true → ∃ t, exec (.drw x y n) s = .next t ∧ t.pc = s.pc - 2 ∧ KeptBut [.pc] s t) ∧
    (s.drawn = false → 1 ≤ n.toNat → 0x1000 ≤ s.i.toNat + n.toNat - 1 →
      exec (.drw x y n) s = .fault (.addressOverflow s))

/-! ### Random, keys, timers (44_timers_keys_random.md) -/

/-- RND Vx,kk (R130, R151): the register is one fresh byte masked by the immediate, and the byte is used up: the next injected
byte, or a free value when none is injected. The random input's place in the state is the model's (log entry 1). -/
def Obligations.RndMasksOneFreshByte : Prop :=
  ∀ (x : Reg) (kk : Byte) (s : State), ∃ t, exec (.rnd x kk) s = .next t ∧
    (∀ b rest, s.rndIn = b :: rest → t.reg x = b &&& kk ∧ t.rndIn = rest ∧ t.draws = s.draws) ∧
    (s.rndIn = [] → t.reg x = Config.freeByte s.draws &&& kk ∧ t.rndIn = [] ∧ t.draws = s.draws + 1) ∧
    RegsKeptBut [x] s t ∧ KeptBut [.v, .rnd] s t

/-- SKP and SKNP (R131, R132): skip on the level of the key `V[x]`; a number of 16 or more stops as R137 and R162 tell a model
to (decision D17 of the spec, log entry 4). -/
def Obligations.SkpAndSknpTestTheKey : Prop :=
  ∀ (x : Reg) (s : State),
    (∀ k : Key, (s.reg x).toNat = k.val →
      (∃ t, exec (.skp x) s = .next t ∧ t.pc = (if s.keysDown.get k = true then s.pc + 2 else s.pc) ∧ KeptBut [.pc] s t) ∧
      (∃ t, exec (.sknp x) s = .next t ∧ t.pc = (if s.keysDown.get k = true then s.pc else s.pc + 2) ∧ KeptBut [.pc] s t)) ∧
    (16 ≤ (s.reg x).toNat →
      exec (.skp x) s = .fault (.unspecifiedKeyIndex s) ∧ exec (.sknp x) s = .fault (.unspecifiedKeyIndex s))

/-- LD Vx,DT (R133): reads the delay counter, which stays. -/
def Obligations.LdVxDtReadsTheDelayCounter : Prop :=
  ∀ (x : Reg) (s : State), ∃ t, exec (.ldVxDt x) s = .next t ∧ t.reg x = s.dt ∧ RegsKeptBut [x] s t ∧ KeptBut [.v] s t

/-- LD Vx,K (R134): with no edge pending `pc` is rewound and nothing else changes; a pending edge is stored and cleared. That
`mode` is not written is the spec's decision D11 (log entry 5). -/
def Obligations.LdVxKWaitsForAReleaseEdge : Prop :=
  ∀ (x : Reg) (s : State),
    (s.keyRel = none → ∃ t, exec (.ldVxK x) s = .next t ∧ t.pc = s.pc - 2 ∧ KeptBut [.pc] s t) ∧
    (∀ k : Key, s.keyRel = some k → ∃ t, exec (.ldVxK x) s = .next t ∧ (t.reg x).toNat = k.val ∧ t.keyRel = none ∧
      RegsKeptBut [x] s t ∧ KeptBut [.v, .keyRel] s t)

/-- KEYWAIT_MODE on (the OPEN parameter of R158): the same rule, and `mode` becomes WaitingKey on a stall and Running on
completion. The default is off (log entry 5). -/
def Obligations.KeyWaitModeRecordsTheWait : Prop :=
  ∀ (p : Parameters) (x : Reg) (s : State), p.keyWaitMode = true →
    (s.keyRel = none → ∃ t, execWith p (.ldVxK x) s = .next t ∧ t.pc = s.pc - 2 ∧ t.mode = .waitingKey ∧ KeptBut [.pc, .mode] s t) ∧
    (∀ k : Key, s.keyRel = some k → ∃ t, execWith p (.ldVxK x) s = .next t ∧ (t.reg x).toNat = k.val ∧ t.keyRel = none ∧
      t.mode = .running ∧ RegsKeptBut [x] s t ∧ KeptBut [.v, .keyRel, .mode] s t)

/-- LD DT,Vx and LD ST,Vx (R135, R136): set a counter from a register; nothing else changes. -/
def Obligations.TimersAreSetFromARegister : Prop :=
  ∀ (x : Reg) (s : State),
    (∃ t, exec (.ldDtVx x) s = .next t ∧ t.dt = s.reg x ∧ KeptBut [.dt] s t) ∧
    (∃ t, exec (.ldStVx x) s = .next t ∧ t.st = s.reg x ∧ KeptBut [.st] s t)

/-! ### Host events (60_exceptions.md, 70_reset_and_hazards.md) -/

/-- NewFrame (R152): both counters lose 1 and stop at 0, the limiter is cleared, nothing else changes. -/
def Obligations.NewFrameCountsDown : Prop :=
  ∀ s : State, s.newFrame.dt.toNat = s.dt.toNat - 1 ∧ s.newFrame.st.toNat = s.st.toNat - 1 ∧
    s.newFrame.drawn = false ∧ KeptBut [.dt, .st, .drawn] s s.newFrame

/-- SetKey (R153): one key's level is set; no other key and nothing else changes, the pending edge included. -/
def Obligations.SetKeySetsOneLevel : Prop :=
  ∀ (s : State) (k : Key) (b : Bool), (s.setKey k b).keysDown.get k = b ∧
    (∀ j, j ≠ k → (s.setKey k b).keysDown.get j = s.keysDown.get j) ∧ KeptBut [.keysDown] s (s.setKey k b)

/-- ReleaseKey (R154): the edge is pending, a pending one is replaced (decision D21 of the spec, log entry 17), and the levels
stay. -/
def Obligations.ReleaseKeyMakesAnEdgePending : Prop :=
  ∀ (s : State) (k : Key), (s.releaseKey k).keyRel = some k ∧ KeptBut [.keyRel] s (s.releaseKey k)

/-- LoadFont and LoadROM (R171, R172): the bytes land verbatim at 0 and at 0x200, every other byte stays, LoadROM sets `mode`
(decision D12 of the spec, log entry 5), and an image of more than 3584 bytes gives nothing (decision D26). -/
def Obligations.LoadsWriteTheirBytes : Prop :=
  ∀ s : State, s.mem.wf = true →
    (∀ font : Vector Byte 50, (∀ k : Fin 50, (s.loadFont font).mem.read k.val = font.get k) ∧
      (∀ a, 50 ≤ a → (s.loadFont font).mem.read a = s.mem.read a) ∧ KeptBut [.mem] s (s.loadFont font)) ∧
    (∀ image : List Byte, image.length ≤ 3584 → ∃ t, s.loadRom image = some t ∧
      (∀ (k : Nat) (h : k < image.length), t.mem.read (0x200 + k) = image[k]) ∧
      (∀ a, a < 0x200 ∨ 0x200 + image.length ≤ a → t.mem.read a = s.mem.read a) ∧
      t.mode = .running ∧ KeptBut [.mem, .mode] s t) ∧
    (∀ image : List Byte, 3584 < image.length → s.loadRom image = none)

/-- Nothing redirects `pc` except the instruction being executed (R147): an event that is not a Step leaves `pc`, `I`, the
registers, the stack and the display alone. -/
def Obligations.OnlyAStepMovesThePc : Prop :=
  ∀ (h h' : Session) (e : HostEvent) (r : Reply), e ≠ .step → h.event e = .next (h', r) →
    h'.core.pc = h.core.pc ∧ h'.core.i = h.core.i ∧ h'.core.v = h.core.v ∧ h'.core.stack = h.core.stack ∧
    h'.core.sp = h.core.sp ∧ h'.core.fb = h.core.fb

/-- A failed Step reports its kind and the host may go on from the state it left; a fetch failure then fails the same way
again (R148, R149). The state left is the spec's decision D2 (log entry 10). -/
def Obligations.HostGoesOnAfterAFailure : Prop :=
  ∀ (h : Session) (f : Fault) (n : Nat), step h.core = .fault f → f.code = some n →
    ∃ h', h.event .step = .next (h', .failed f) ∧ h'.core = f.left ∧ h'.failed = true ∧
      (0x1000 ≤ h.core.pc.toNat + 1 → step h'.core = .fault f)

/-! ### The end of a run (70_reset_and_hazards.md) and the open parameters (00_scope.md) -/

/-- The end of a run is the first state, reached after a successful Step, in which the word at `pc` is a jump to itself: some
events lead to a session whose Step succeeds and reaches it, and no successful Step before it reached another (R179; decision
D27 of the spec, log entry 25). -/
def Obligations.EndOfRunIsReachedByASuccessfulStep : Prop :=
  ∀ (start : Session) (events : List HostEvent) (h : Session),
    start.endOfRun events = some h ↔
      ∃ before rest g, events = before ++ .step :: rest ∧ start.run before = .next g ∧
        g.event .step = .next (h, .done) ∧ h.core.jumpsToItself = true ∧
        ∀ earlier later g' h', before = earlier ++ .step :: later → start.run earlier = .next g' →
          g'.event .step = .next (h', .done) → h'.core.jumpsToItself = false

/-- One Step at any values of the open parameters, the opcode table among them, runs what that table decodes; at the default
values it is the Step (R2, R60, R65, R68). It rests on decisions D2 and D31 of the spec as the Step does (log entry 10). -/
def Obligations.StepAtParametersRunsTheDecodedInstruction : Prop :=
  ∀ (p : Parameters) (s : State),
    stepWith Parameters.default s = step s ∧
    (0x1000 ≤ s.pc.toNat + 1 → stepWith p s = .fault (.addressOverflow s)) ∧
    (s.pc.toNat + 1 < 0x1000 → ∀ w : Word,
      w.toNat = 256 * (s.mem.read s.pc.toNat).toNat + (s.mem.read (s.pc.toNat + 1)).toNat →
      (∀ i, decodeWith p.opcodeTable w = .ok i → stepWith p s = execWith p i (s.setPc (s.pc + 2))) ∧
      ((∀ r ∈ p.opcodeTable, r.pattern.selects (cutFields w) = false) →
        stepWith p s = .fault (.invalidInstruction (s.setPc (s.pc + 2)))))

/-- Which instructions depend on an open parameter, and what DRW of height 0 and ADD I past 65535 do at the value fault: every
other instruction, and these where the parameter does not matter, is as at the defaults (R2; 93_implementation_defined.md U3,
U5, U6; log entries 5, 6 and 7). What LD Vx,K does with KEYWAIT_MODE on is `KeyWaitModeRecordsTheWait`. -/
def Obligations.ParametersReachOnlyTheirInstructions : Prop :=
  ∀ (p : Parameters) (s : State),
    (∀ i, (∀ x, i ≠ .ldVxK x) → (∀ x y n, i ≠ .drw x y n) → (∀ x, i ≠ .addI x) → execWith p i s = exec i s) ∧
    (∀ x, p.keyWaitMode = false → execWith p (.ldVxK x) s = exec (.ldVxK x) s) ∧
    (∀ x y n, (p.drwN0 = .execute ∨ n ≠ 0 ∨ s.drawn = true) → execWith p (.drw x y n) s = exec (.drw x y n) s) ∧
    (∀ x y, p.drwN0 = .fault → s.drawn = false → execWith p (.drw x y 0) s = .fault (.unspecifiedSpriteHeight s)) ∧
    (∀ x, (p.addIWrap = .wrap ∨ s.i.toNat + (s.reg x).toNat < 65536) → execWith p (.addI x) s = exec (.addI x) s) ∧
    (∀ x, p.addIWrap = .fault → 65536 ≤ s.i.toNat + (s.reg x).toNat →
      execWith p (.addI x) s = .fault (.unspecifiedIndexWrap s))
end

