-- ==== Sys2Proof/Laws/Display.lean ====
section
/-! SUPPORT. The laws of the display buffer: a pixel read after a pixel written, and what one sprite bit does. -/

namespace Sys2Proof.Machine

/-- A pixel after one pixel inside the buffer is written (R22). -/
theorem Display.pixel_setPixel (d : Display) {row col : Nat} (hr : row < 32) (hc : col < 64) (b : Bool) (r c : Nat) :
    Display.pixel (Display.setPixel d row col b) r c = if r = row ∧ c = col then b else Display.pixel d r c := by
  unfold Display.pixel Display.setPixel
  by_cases h : r = row
  · subst h
    by_cases h2 : c = col
    · subst h2
      simp [hr, hc]
    · have h3 : col ≠ c := fun e => h2 e.symm
      simp [hr, h2, h3]
  · have h3 : row ≠ r := fun e => h e.symm
    simp [h, h3]

/-- Two displays with the same pixels are the same. -/
theorem Display.ext_pixel {d e : Display} (h : ∀ r c, r < 32 → c < 64 → Display.pixel d r c = Display.pixel e r c) : d = e := by
  apply Vector.ext; intro r hr
  apply Vector.ext; intro c hc
  have := h r c hr hc
  simpa [Display.pixel, hr, hc] using this

/-- Outside the buffer no pixel is set. -/
theorem Display.pixel_outside (d : Display) {r c : Nat} (h : 32 ≤ r ∨ 64 ≤ c) : Display.pixel d r c = false := by
  unfold Display.pixel
  rcases h with h | h
  · simp [h]
  · cases d[r]? with
    | none => rfl
    | some x => simp [h]

@[simp] theorem length_spriteRow (b : Byte) : (spriteRow b).length = 8 := by simp [spriteRow]

/-- One sprite bit: the pixel is XORed, every other pixel stays, and a collision is a set pixel meeting a 1 bit (R121). -/
theorem Blit.pixel_plot (t : Blit) {row col : Nat} (hr : row < 32) (hc : col < 64) (bit : Bool) (r c : Nat) :
    Display.pixel (t.plot row col bit).fb r c =
      if r = row ∧ c = col then Display.pixel t.fb r c ^^ bit else Display.pixel t.fb r c := by
  unfold Blit.plot
  cases bit
  · simp
  · simp only [if_true, Display.pixel_setPixel _ hr hc, Bool.xor_true]
    split
    · next h => rw [h.1, h.2]
    · rfl

theorem Blit.coll_plot (t : Blit) (row col : Nat) (bit : Bool) :
    (t.plot row col bit).coll = (t.coll || (bit && Display.pixel t.fb row col)) := by
  cases bit <;> simp [Blit.plot]

/-- One sprite row, clipped at the right edge: which pixels it XORs, and when it reports a collision (R121). -/
theorem blitRow_spec (row : Nat) (hr : row < 32) (bits : List Bool) (col : Nat) (t : Blit) :
    (∀ r c, r < 32 → c < 64 → Display.pixel (blitRow row col bits t).fb r c =
      (Display.pixel t.fb r c ^^ (decide (r = row ∧ col ≤ c) && (bits[c - col]?).getD false))) ∧
    ((blitRow row col bits t).coll = true ↔ t.coll = true ∨ ∃ c, c < 64 ∧ col ≤ c ∧ (bits[c - col]?).getD false = true ∧ Display.pixel t.fb row c = true) := by
  induction bits generalizing col t with
  | nil => simp [blitRow]
  | cons b bs ih =>
    unfold blitRow
    split
    · next h =>
      simp only [Config.displayCols, ge_iff_le] at h
      refine ⟨fun r c hr hc => by simp [show ¬ col ≤ c by omega], ?_⟩
      constructor
      · exact .inl
      · rintro (h' | ⟨c, h1, h2, _⟩)
        · exact h'
        · omega
    · next h =>
      simp only [Config.displayCols, ge_iff_le, not_le] at h
      obtain ⟨i1, i2⟩ := ih (col + 1) (t.plot row col b)
      refine ⟨fun r c hr' hc => ?_, ?_⟩
      · rw [i1 r c hr' hc, Blit.pixel_plot t hr h]
        by_cases hrr : r = row
        · subst hrr
          by_cases hcc : c = col
          · subst hcc; simp
          · by_cases hlt : col ≤ c
            · obtain ⟨j, hj⟩ : ∃ j, c - col = j + 1 := ⟨c - col - 1, by omega⟩
              have : c - (col + 1) = j := by omega
              simp [hcc, hlt, hj, this, show col + 1 ≤ c by omega]
            · simp [hcc, hlt, show ¬ col + 1 ≤ c by omega]
        · simp [hrr]
      · rw [i2, Blit.coll_plot]
        constructor
        · rintro (h1 | ⟨c, h1, h2, h3, h4⟩)
          · simp at h1
            rcases h1 with h1 | ⟨h1, h1'⟩
            · exact .inl h1
            · exact .inr ⟨col, h, le_refl _, by simpa using h1, h1'⟩
          · rw [Blit.pixel_plot t hr h] at h4
            simp [show c ≠ col by omega] at h4
            obtain ⟨j, hj⟩ : ∃ j, c - col = j + 1 := ⟨c - col - 1, by omega⟩
            have : c - (col + 1) = j := by omega
            exact .inr ⟨c, h1, by omega, by rw [hj]; simpa [this] using h3, h4⟩
        · rintro (h1 | ⟨c, h1, h2, h3, h4⟩)
          · simp [h1]
          · by_cases hcc : c = col
            · subst hcc; simp at h3; simp [h3, h4]
            · refine .inr ⟨c, h1, by omega, ?_, ?_⟩
              · obtain ⟨j, hj⟩ : ∃ j, c - col = j + 1 := ⟨c - col - 1, by omega⟩
                have : c - (col + 1) = j := by omega
                rw [hj] at h3; rw [this]; simpa using h3
              · rw [Blit.pixel_plot t hr h]; simp [hcc, h4]

/-- The bit of a sprite's bytes that falls on a pixel, clipping left out (R122). -/
def spriteBit (x0 : Nat) (bytes : List Byte) (row : Nat) (r c : Nat) : Bool :=
  decide (row ≤ r ∧ x0 ≤ c ∧ c < x0 + 8) && ((bytes[r - row]?).map fun b => b.getLsbD (7 - (c - x0))).getD false

theorem getElem_spriteRow (b : Byte) (x0 c) (h : x0 ≤ c) : ((spriteRow b)[c - x0]?).getD false = (decide (c < x0 + 8) && b.getLsbD (7 - (c - x0))) := by
  by_cases hc : c < x0 + 8
  · have : c - x0 < (spriteRow b).length := by simp; omega
    rw [List.getElem?_eq_getElem this]; simp [spriteRow, hc]
  · rw [List.getElem?_eq_none (by simp; omega)]; simp [hc]

/-- A whole sprite, clipped at both edges: which pixels it XORs, and when it reports a collision (R121). -/
theorem blitRows_spec (x0 : Nat) (bytes : List Byte) (row : Nat) (t : Blit) :
    (∀ r c, r < 32 → c < 64 → Display.pixel (blitRows x0 row bytes t).fb r c =
      (Display.pixel t.fb r c ^^ spriteBit x0 bytes row r c)) ∧
    ((blitRows x0 row bytes t).coll = true ↔ t.coll = true ∨ ∃ r c, r < 32 ∧ c < 64 ∧ spriteBit x0 bytes row r c = true ∧ Display.pixel t.fb r c = true) := by
  induction bytes generalizing row t with
  | nil => simp [blitRows, spriteBit]
  | cons b bs ih =>
    unfold blitRows
    have hb : ∀ r c, spriteBit x0 (b :: bs) row r c = if r = row then (decide (x0 ≤ c) && ((spriteRow b)[c - x0]?).getD false) else spriteBit x0 bs (row+1) r c := by
      intro r c
      by_cases hrr : r = row
      · subst hrr
        by_cases hx : x0 ≤ c
        · rw [getElem_spriteRow _ _ _ hx]; simp [spriteBit, hx]
        · simp [spriteBit, hx]
      · by_cases hlt : row ≤ r
        · obtain ⟨j, hj⟩ : ∃ j, r - row = j + 1 := ⟨r - row - 1, by omega⟩
          have : r - (row + 1) = j := by omega
          simp [spriteBit, hrr, hj, this, hlt, show row + 1 ≤ r by omega]
        · simp [spriteBit, hrr, hlt, show ¬ row + 1 ≤ r by omega]
    split
    · next h =>
      simp only [Config.displayRows, ge_iff_le] at h
      refine ⟨fun r c hr hc => by simp [spriteBit, show ¬ row ≤ r by omega], ?_⟩
      constructor
      · exact .inl
      · rintro (h' | ⟨r, c, h1, h2, h3, _⟩)
        · exact h'
        · simp [spriteBit] at h3; omega
    · next h =>
      simp only [Config.displayRows, ge_iff_le, not_le] at h
      obtain ⟨r1, r2⟩ := blitRow_spec row h (spriteRow b) x0 t
      obtain ⟨i1, i2⟩ := ih (row + 1) (blitRow row x0 (spriteRow b) t)
      refine ⟨fun r c hr hc => ?_, ?_⟩
      · rw [i1 r c hr hc, r1 r c hr hc, hb]
        by_cases hrr : r = row
        · subst hrr; simp [spriteBit]
        · simp [hrr]
      · rw [i2, r2]
        constructor
        · rintro ((h1 | ⟨c, h1, h2, h3, h4⟩) | ⟨r, c, h1, h2, h3, h4⟩)
          · exact .inl h1
          · exact .inr ⟨row, c, h, h1, by rw [hb]; simp [h2, h3], h4⟩
          · have hrr : r ≠ row := by intro e; subst e; simp [spriteBit] at h3
            refine .inr ⟨r, c, h1, h2, by rw [hb]; simp [hrr, h3], ?_⟩
            rw [r1 r c h1 h2] at h4; simpa [hrr] using h4
        · rintro (h1 | ⟨r, c, h1, h2, h3, h4⟩)
          · exact .inl (.inl h1)
          · rw [hb] at h3
            by_cases hrr : r = row
            · subst hrr; simp at h3; exact .inl (.inr ⟨c, h2, h3.1, h3.2, h4⟩)
            · simp [hrr] at h3
              exact .inr ⟨r, c, h1, h2, h3, by rw [r1 r c h1 h2]; simpa [hrr] using h4⟩

/-- A blank display has no pixel set (R120). -/
@[simp] theorem Display.pixel_blank (row col : Nat) : Display.pixel Display.blank row col = false := by
  by_cases h : row < 32 ∧ col < 64
  · simp [Display.pixel, Display.blank, h.1, h.2]
  · exact Display.pixel_outside _ (by omega)

end Sys2Proof.Machine
end

