-- ==== Sys2Proof/Laws/Encoding.lean ====
section
/-! SUPPORT. The fields of the three word layouts, the bytes of a word, and the opcode map's shape. -/

namespace Sys2Proof

theorem getLsbD_packNibbles (op x y n : Nibble) (i : Nat) :
    (packNibbles op x y n).getLsbD i =
      if i < 4 then n.getLsbD i else if i < 8 then y.getLsbD (i - 4)
      else if i < 12 then x.getLsbD (i - 8) else op.getLsbD (i - 12) := by
  simp only [packNibbles, BitVec.getLsbD_append]
  repeat' split
  all_goals first | rfl | omega

@[simp] theorem cutFields_packNibbles (op x y n : Nibble) :
    cutFields (packNibbles op x y n) =
      { op := op, x := x, y := y, n := n, kk := y ++ n, nnn := x ++ y ++ n } := by
  simp only [cutFields, Fields.mk.injEq]
  refine ⟨?_, ?_, ?_, ?_, ?_, ?_⟩ <;>
    (apply BitVec.eq_of_getLsbD_eq; intro i hi
     simp only [BitVec.getLsbD_extractLsb', getLsbD_packNibbles, BitVec.getLsbD_append, hi, decide_true, Bool.true_and]
     repeat' split
     all_goals first | omega | (congr 1; omega))

/-- The low nibble of a byte. -/
def lowNibble (b : Byte) : Nibble := b.extractLsb' 0 4

/-- The high nibble of a byte. -/
def highNibble (b : Byte) : Nibble := b.extractLsb' 4 4

theorem append_nibbles (b : Byte) : highNibble b ++ lowNibble b = b := by
  apply BitVec.eq_of_getLsbD_eq; intro i hi
  simp only [highNibble, lowNibble, BitVec.getLsbD_append, BitVec.getLsbD_extractLsb']
  split
  · next h => simp [h]
  · have : i - 4 < 4 := by omega
    simp only [this, decide_true, Bool.true_and]; congr 1; omega

theorem packXkk_eq (op x : Nibble) (kk : Byte) :
    packXkk op x kk = packNibbles op x (highNibble kk) (lowNibble kk) := by
  apply BitVec.eq_of_getLsbD_eq; intro i hi
  simp only [getLsbD_packNibbles, packXkk, BitVec.getLsbD_append, highNibble, lowNibble, BitVec.getLsbD_extractLsb']
  repeat' split
  all_goals first | rfl | omega | skip
  · next h => simp [h]
  · (have : i - 4 < 4 := by omega); simp [this]; congr 1; omega

theorem packNnn_eq (op : Nibble) (nnn : Addr) :
    packNnn op nnn =
      packNibbles op (nnn.extractLsb' 8 4) (nnn.extractLsb' 4 4) (nnn.extractLsb' 0 4) := by
  apply BitVec.eq_of_getLsbD_eq; intro i hi
  simp only [getLsbD_packNibbles, packNnn, BitVec.getLsbD_append, BitVec.getLsbD_extractLsb']
  repeat' split
  all_goals first | rfl | omega | skip
  · next h => simp [h]
  · (have : i - 4 < 4 := by omega); simp [this]; congr 1; omega
  · (have : i - 8 < 4 := by omega); simp [this]; congr 1; omega

theorem append_addr (a : Addr) :
    (a.extractLsb' 8 4 ++ a.extractLsb' 4 4 ++ a.extractLsb' 0 4 : Addr) = a := by
  apply BitVec.eq_of_getLsbD_eq; intro i hi
  simp only [BitVec.getLsbD_append, BitVec.getLsbD_extractLsb']
  repeat' split
  · next h => simp [h]
  · (have : i - 4 < 4 := by omega); simp [this]; congr 1; omega
  · (have : i - 4 - 4 < 4 := by omega); simp [this]; congr 1; omega

@[simp] theorem cutFields_packXkk (op x : Nibble) (kk : Byte) :
    cutFields (packXkk op x kk) =
      { op := op, x := x, y := highNibble kk, n := lowNibble kk, kk := kk,
        nnn := x ++ highNibble kk ++ lowNibble kk } := by
  rw [packXkk_eq, cutFields_packNibbles, append_nibbles]

@[simp] theorem cutFields_packNnn (op : Nibble) (nnn : Addr) :
    cutFields (packNnn op nnn) =
      { op := op, x := nnn.extractLsb' 8 4, y := nnn.extractLsb' 4 4, n := nnn.extractLsb' 0 4,
        kk := nnn.extractLsb' 4 4 ++ nnn.extractLsb' 0 4, nnn := nnn } := by
  rw [packNnn_eq, cutFields_packNibbles, append_addr]

/-- A word is its four nibbles. -/
theorem packNibbles_cutFields (w : Word) :
    packNibbles (cutFields w).op (cutFields w).x (cutFields w).y (cutFields w).n = w := by
  apply BitVec.eq_of_getLsbD_eq; intro i hi
  simp only [getLsbD_packNibbles, cutFields, BitVec.getLsbD_extractLsb']
  repeat' split
  · next h => simp [h]
  · (have : i - 4 < 4 := by omega); simp [this]; congr 1; omega
  · (have : i - 8 < 4 := by omega); simp [this]; congr 1; omega
  · (have : i - 12 < 4 := by omega); simp [this]; congr 1; omega

/-- The layouts agree: an XKK word whose immediate is two nibbles. -/
@[simp] theorem packXkk_append (op x y n : Nibble) : packXkk op x (y ++ n) = packNibbles op x y n := by
  apply BitVec.eq_of_getLsbD_eq; intro i hi
  simp only [getLsbD_packNibbles, packXkk, BitVec.getLsbD_append]
  repeat' split
  all_goals first | rfl | omega

/-- The layouts agree: an NNN word whose address is three nibbles. -/
@[simp] theorem packNnn_append (op x y n : Nibble) : packNnn op (x ++ y ++ n) = packNibbles op x y n := by
  apply BitVec.eq_of_getLsbD_eq; intro i hi
  simp only [getLsbD_packNibbles, packNnn, BitVec.getLsbD_append]
  repeat' split
  all_goals first | rfl | omega

/-- The number a four-nibble word is (R61). -/
theorem toNat_packNibbles (op x y n : Nibble) :
    (packNibbles op x y n).toNat = 0x1000 * op.toNat + 0x100 * x.toNat + 0x10 * y.toNat + n.toNat := by
  simp only [packNibbles, BitVec.toNat_append]
  rw [← Nat.shiftLeft_add_eq_or_of_lt n.isLt, ← Nat.shiftLeft_add_eq_or_of_lt y.isLt,
    ← Nat.shiftLeft_add_eq_or_of_lt x.isLt]
  simp only [Nat.shiftLeft_eq]; omega

/-- The number an XKK word is (R61). -/
theorem toNat_packXkk (op x : Nibble) (kk : Byte) :
    (packXkk op x kk).toNat = 0x1000 * op.toNat + 0x100 * x.toNat + kk.toNat := by
  simp only [packXkk, BitVec.toNat_append]
  rw [← Nat.shiftLeft_add_eq_or_of_lt kk.isLt, ← Nat.shiftLeft_add_eq_or_of_lt x.isLt]
  simp only [Nat.shiftLeft_eq]; omega

/-- The number an NNN word is (R61). -/
theorem toNat_packNnn (op : Nibble) (nnn : Addr) : (packNnn op nnn).toNat = 0x1000 * op.toNat + nnn.toNat := by
  simp only [packNnn, BitVec.toNat_append]
  rw [← Nat.shiftLeft_add_eq_or_of_lt nnn.isLt]
  simp only [Nat.shiftLeft_eq]; omega

@[simp] theorem toNat_regField (r : Reg) : (regField r).toNat = r.val := rfl

@[simp] theorem wordOfBytes_high_low (w : Word) : wordOfBytes (highByte w) (lowByte w) = w := by
  apply BitVec.eq_of_getLsbD_eq; intro i hi
  simp only [wordOfBytes, highByte, lowByte, BitVec.getLsbD_append, BitVec.getLsbD_extractLsb']
  split
  · next h => simp [h]
  · (have : i - 8 < 8 := by omega); simp [this]; congr 1; omega

/-- The word of two bytes, the byte at the lower address weighing 256 (R43). -/
theorem toNat_wordOfBytes (hi lo : Byte) : (wordOfBytes hi lo).toNat = 256 * hi.toNat + lo.toNat := by
  have := lo.isLt
  simp only [wordOfBytes, BitVec.toNat_append]
  rw [← Nat.shiftLeft_add_eq_or_of_lt lo.isLt, Nat.shiftLeft_eq]; omega

@[simp] theorem regField_toFin (r : Reg) : (regField r).toFin = r := rfl

/-- The opcode map is well formed: no two rows match the same word (R65). -/
theorem opcodeTable_wf : patternsWf (opcodeTable.map (·.pattern)) = true := by decide

/-- The opcode map has 34 rows (R65). -/
theorem opcodeTable_length : opcodeTable.length = 34 := by decide

end Sys2Proof
end

