-- ==== Sys2Proof/Laws/Memory.lean ====
section
/-! SUPPORT. The laws of memory: read after write, and the canonical form that every operation keeps. -/

namespace Sys2Proof.Machine

theorem Memory.wfFrom_cons {lo a : Nat} {b : Byte} {rest : Memory} :
    Memory.wfFrom lo ((a, b) :: rest) = true ↔
      lo ≤ a ∧ a < 0x1000 ∧ b ≠ Memory.blank ∧ Memory.wfFrom (a + 1) rest = true := by
  simp [Memory.wfFrom, and_assoc]

/-- A memory canonical from an address up is canonical from every lower one. -/
theorem Memory.wfFrom_mono {lo lo' : Nat} {m : Memory} (h : lo' ≤ lo) (hm : Memory.wfFrom lo m = true) :
    Memory.wfFrom lo' m = true := by
  cases m with
  | nil => rfl
  | cons c rest =>
    obtain ⟨a, b⟩ := c
    rw [Memory.wfFrom_cons] at hm ⊢
    exact ⟨by omega, hm.2⟩

/-- Below the address it is canonical from, a memory lists nothing. -/
theorem Memory.read_of_lt {lo a : Nat} {m : Memory} (hm : Memory.wfFrom lo m = true) (h : a < lo) :
    Memory.read m a = Memory.blank := by
  induction m generalizing lo with
  | nil => rfl
  | cons c rest ih =>
    obtain ⟨k, b⟩ := c
    rw [Memory.wfFrom_cons] at hm
    have hne : a ≠ k := by omega
    simp only [Memory.read, hne, if_false]
    exact ih hm.2.2.2 (by omega)

theorem Memory.read_cons_same {a : Nat} {b : Byte} {m : Memory} (h : Memory.read m a = Memory.blank) :
    Memory.read (Memory.cons a b m) a = b := by
  unfold Memory.cons
  split
  · next hb => rw [hb, h]
  · simp [Memory.read]

theorem Memory.read_cons_ne {a k : Nat} {b : Byte} {m : Memory} (h : k ≠ a) :
    Memory.read (Memory.cons a b m) k = Memory.read m k := by
  unfold Memory.cons
  split
  · rfl
  · simp [Memory.read, h]

theorem Memory.wfFrom_consOp {lo a : Nat} {b : Byte} {m : Memory} (hlo : lo ≤ a) (ha : a < 0x1000)
    (hm : Memory.wfFrom (a + 1) m = true) : Memory.wfFrom lo (Memory.cons a b m) = true := by
  unfold Memory.cons
  split
  · exact Memory.wfFrom_mono (by omega) hm
  · next hb => exact Memory.wfFrom_cons.mpr ⟨hlo, ha, hb, hm⟩

/-- A stored byte keeps the canonical form. -/
theorem Memory.wfFrom_write {lo a : Nat} {b : Byte} {m : Memory} (hlo : lo ≤ a) (ha : a < 0x1000)
    (hm : Memory.wfFrom lo m = true) : Memory.wfFrom lo (Memory.write m a b) = true := by
  induction m generalizing lo with
  | nil => exact Memory.wfFrom_consOp hlo ha rfl
  | cons c rest ih =>
    obtain ⟨k, d⟩ := c
    rw [Memory.wfFrom_cons] at hm
    obtain ⟨h1, h2, h3, h4⟩ := hm
    unfold Memory.write
    split
    · next hlt => exact Memory.wfFrom_consOp hlo ha (Memory.wfFrom_cons.mpr ⟨by omega, h2, h3, h4⟩)
    · split
      · next heq => subst heq; exact Memory.wfFrom_consOp hlo ha h4
      · exact Memory.wfFrom_cons.mpr ⟨h1, h2, h3, ih (by omega) h4⟩

/-- A stored byte keeps the canonical form. -/
theorem Memory.wf_write {a : Nat} {b : Byte} {m : Memory} (ha : a < 0x1000) (hm : m.wf = true) :
    (m.write a b).wf = true := Memory.wfFrom_write (Nat.zero_le a) ha hm

/-- A store leaves every other byte alone; this needs no canonical form. -/
theorem Memory.read_write_ne {a k : Nat} {b : Byte} {m : Memory} (h : k ≠ a) :
    Memory.read (Memory.write m a b) k = Memory.read m k := by
  induction m with
  | nil => exact Memory.read_cons_ne h
  | cons c rest ih =>
    obtain ⟨j, d⟩ := c
    unfold Memory.write
    split
    · exact Memory.read_cons_ne h
    · split
      · next heq => subst heq; rw [Memory.read_cons_ne h]; simp [Memory.read, h]
      · simp only [Memory.read, ih]

/-- A read gives the byte last stored there. -/
theorem Memory.read_write_same {lo a : Nat} {b : Byte} {m : Memory} (hm : Memory.wfFrom lo m = true) :
    Memory.read (Memory.write m a b) a = b := by
  induction m generalizing lo with
  | nil => exact Memory.read_cons_same rfl
  | cons c rest ih =>
    obtain ⟨k, d⟩ := c
    have hm' := hm
    rw [Memory.wfFrom_cons] at hm
    obtain ⟨h1, h2, h3, h4⟩ := hm
    unfold Memory.write
    split
    · next hlt =>
      refine Memory.read_cons_same ?_
      have hne : a ≠ k := by omega
      simp only [Memory.read, hne, if_false]
      exact Memory.read_of_lt h4 (by omega)
    · split
      · next heq => subst heq; exact Memory.read_cons_same (Memory.read_of_lt h4 (by omega))
      · next hne =>
        simp only [Memory.read, hne, if_false]
        exact ih h4

/-- A run of stored bytes keeps the canonical form. -/
theorem Memory.wf_writeList {m : Memory} {a : Nat} {bs : List Byte} (hm : m.wf = true)
    (h : a + bs.length ≤ 0x1000) : (m.writeList a bs).wf = true := by
  induction bs generalizing m a with
  | nil => exact hm
  | cons b bs ih =>
    simp only [List.length_cons] at h
    exact ih (Memory.wf_write (by omega) hm) (by omega)

/-- A run of stored bytes leaves every byte outside the run alone. -/
theorem Memory.read_writeList_outside {m : Memory} {a k : Nat} {bs : List Byte} (h : k < a ∨ a + bs.length ≤ k) :
    (m.writeList a bs).read k = m.read k := by
  induction bs generalizing m a with
  | nil => rfl
  | cons b bs ih =>
    simp only [List.length_cons] at h
    rw [Memory.writeList, ih (by omega), Memory.read_write_ne (by omega)]

/-- The j-th byte of a run is read back at the run's j-th address. -/
theorem Memory.read_writeList_inside {m : Memory} {a : Nat} {bs : List Byte} (hm : m.wf = true)
    (hb : a + bs.length ≤ 0x1000) (j : Nat) (hj : j < bs.length) : (m.writeList a bs).read (a + j) = bs[j] := by
  induction bs generalizing m a j with
  | nil => simp at hj
  | cons b bs ih =>
    simp only [List.length_cons] at hb hj
    cases j with
    | zero =>
      rw [Memory.writeList, Memory.read_writeList_outside (by omega)]
      exact Memory.read_write_same hm
    | succ j =>
      have := ih (m := m.write a b) (a := a + 1) (Memory.wf_write (by omega) hm) (by omega) j (by omega)
      rw [Memory.writeList, show a + (j + 1) = a + 1 + j by omega, this]
      simp

@[simp] theorem Memory.length_readList (m : Memory) (a n : Nat) : (m.readList a n).length = n := by
  simp [Memory.readList]

theorem Memory.getElem_readList (m : Memory) (a n k : Nat) (h : k < (m.readList a n).length) :
    (m.readList a n)[k] = m.read (a + k) := by
  simp [Memory.readList]

end Sys2Proof.Machine
end

