-- ==== Sys2Proof/Laws/State.lean ====
section
/-! SUPPORT. What each setter does to each field of the state: one lemma a field and setter, true by rfl. -/

namespace Sys2Proof.Machine

variable (s : State)

/-! ### setReg -/

@[simp] theorem State.setReg_v (x : Reg) (b : Byte) : (s.setReg x b).v = s.v.set x.val b x.isLt := rfl
@[simp] theorem State.setReg_pc (x : Reg) (b : Byte) : (s.setReg x b).pc = s.pc := rfl
@[simp] theorem State.setReg_i (x : Reg) (b : Byte) : (s.setReg x b).i = s.i := rfl
@[simp] theorem State.setReg_stack (x : Reg) (b : Byte) : (s.setReg x b).stack = s.stack := rfl
@[simp] theorem State.setReg_sp (x : Reg) (b : Byte) : (s.setReg x b).sp = s.sp := rfl
@[simp] theorem State.setReg_dt (x : Reg) (b : Byte) : (s.setReg x b).dt = s.dt := rfl
@[simp] theorem State.setReg_st (x : Reg) (b : Byte) : (s.setReg x b).st = s.st := rfl
@[simp] theorem State.setReg_mem (x : Reg) (b : Byte) : (s.setReg x b).mem = s.mem := rfl
@[simp] theorem State.setReg_mode (x : Reg) (b : Byte) : (s.setReg x b).mode = s.mode := rfl
@[simp] theorem State.setReg_fb (x : Reg) (b : Byte) : (s.setReg x b).fb = s.fb := rfl
@[simp] theorem State.setReg_keysDown (x : Reg) (b : Byte) : (s.setReg x b).keysDown = s.keysDown := rfl
@[simp] theorem State.setReg_keyRel (x : Reg) (b : Byte) : (s.setReg x b).keyRel = s.keyRel := rfl
@[simp] theorem State.setReg_drawn (x : Reg) (b : Byte) : (s.setReg x b).drawn = s.drawn := rfl
@[simp] theorem State.setReg_rndIn (x : Reg) (b : Byte) : (s.setReg x b).rndIn = s.rndIn := rfl
@[simp] theorem State.setReg_draws (x : Reg) (b : Byte) : (s.setReg x b).draws = s.draws := rfl

/-! ### setPc -/

@[simp] theorem State.setPc_v (w : Word) : (s.setPc w).v = s.v := rfl
@[simp] theorem State.setPc_pc (w : Word) : (s.setPc w).pc = w := rfl
@[simp] theorem State.setPc_i (w : Word) : (s.setPc w).i = s.i := rfl
@[simp] theorem State.setPc_stack (w : Word) : (s.setPc w).stack = s.stack := rfl
@[simp] theorem State.setPc_sp (w : Word) : (s.setPc w).sp = s.sp := rfl
@[simp] theorem State.setPc_dt (w : Word) : (s.setPc w).dt = s.dt := rfl
@[simp] theorem State.setPc_st (w : Word) : (s.setPc w).st = s.st := rfl
@[simp] theorem State.setPc_mem (w : Word) : (s.setPc w).mem = s.mem := rfl
@[simp] theorem State.setPc_mode (w : Word) : (s.setPc w).mode = s.mode := rfl
@[simp] theorem State.setPc_fb (w : Word) : (s.setPc w).fb = s.fb := rfl
@[simp] theorem State.setPc_keysDown (w : Word) : (s.setPc w).keysDown = s.keysDown := rfl
@[simp] theorem State.setPc_keyRel (w : Word) : (s.setPc w).keyRel = s.keyRel := rfl
@[simp] theorem State.setPc_drawn (w : Word) : (s.setPc w).drawn = s.drawn := rfl
@[simp] theorem State.setPc_rndIn (w : Word) : (s.setPc w).rndIn = s.rndIn := rfl
@[simp] theorem State.setPc_draws (w : Word) : (s.setPc w).draws = s.draws := rfl
@[simp] theorem State.setPc_reg (w : Word) (r : Reg) : (s.setPc w).reg r = s.reg r := rfl

/-! ### setI -/

@[simp] theorem State.setI_v (w : Word) : (s.setI w).v = s.v := rfl
@[simp] theorem State.setI_pc (w : Word) : (s.setI w).pc = s.pc := rfl
@[simp] theorem State.setI_i (w : Word) : (s.setI w).i = w := rfl
@[simp] theorem State.setI_stack (w : Word) : (s.setI w).stack = s.stack := rfl
@[simp] theorem State.setI_sp (w : Word) : (s.setI w).sp = s.sp := rfl
@[simp] theorem State.setI_dt (w : Word) : (s.setI w).dt = s.dt := rfl
@[simp] theorem State.setI_st (w : Word) : (s.setI w).st = s.st := rfl
@[simp] theorem State.setI_mem (w : Word) : (s.setI w).mem = s.mem := rfl
@[simp] theorem State.setI_mode (w : Word) : (s.setI w).mode = s.mode := rfl
@[simp] theorem State.setI_fb (w : Word) : (s.setI w).fb = s.fb := rfl
@[simp] theorem State.setI_keysDown (w : Word) : (s.setI w).keysDown = s.keysDown := rfl
@[simp] theorem State.setI_keyRel (w : Word) : (s.setI w).keyRel = s.keyRel := rfl
@[simp] theorem State.setI_drawn (w : Word) : (s.setI w).drawn = s.drawn := rfl
@[simp] theorem State.setI_rndIn (w : Word) : (s.setI w).rndIn = s.rndIn := rfl
@[simp] theorem State.setI_draws (w : Word) : (s.setI w).draws = s.draws := rfl
@[simp] theorem State.setI_reg (w : Word) (r : Reg) : (s.setI w).reg r = s.reg r := rfl

/-! ### setStack -/

@[simp] theorem State.setStack_v (k : Vector Word Config.stackDepth) : (s.setStack k).v = s.v := rfl
@[simp] theorem State.setStack_pc (k : Vector Word Config.stackDepth) : (s.setStack k).pc = s.pc := rfl
@[simp] theorem State.setStack_i (k : Vector Word Config.stackDepth) : (s.setStack k).i = s.i := rfl
@[simp] theorem State.setStack_stack (k : Vector Word Config.stackDepth) : (s.setStack k).stack = k := rfl
@[simp] theorem State.setStack_sp (k : Vector Word Config.stackDepth) : (s.setStack k).sp = s.sp := rfl
@[simp] theorem State.setStack_dt (k : Vector Word Config.stackDepth) : (s.setStack k).dt = s.dt := rfl
@[simp] theorem State.setStack_st (k : Vector Word Config.stackDepth) : (s.setStack k).st = s.st := rfl
@[simp] theorem State.setStack_mem (k : Vector Word Config.stackDepth) : (s.setStack k).mem = s.mem := rfl
@[simp] theorem State.setStack_mode (k : Vector Word Config.stackDepth) : (s.setStack k).mode = s.mode := rfl
@[simp] theorem State.setStack_fb (k : Vector Word Config.stackDepth) : (s.setStack k).fb = s.fb := rfl
@[simp] theorem State.setStack_keysDown (k : Vector Word Config.stackDepth) : (s.setStack k).keysDown = s.keysDown := rfl
@[simp] theorem State.setStack_keyRel (k : Vector Word Config.stackDepth) : (s.setStack k).keyRel = s.keyRel := rfl
@[simp] theorem State.setStack_drawn (k : Vector Word Config.stackDepth) : (s.setStack k).drawn = s.drawn := rfl
@[simp] theorem State.setStack_rndIn (k : Vector Word Config.stackDepth) : (s.setStack k).rndIn = s.rndIn := rfl
@[simp] theorem State.setStack_draws (k : Vector Word Config.stackDepth) : (s.setStack k).draws = s.draws := rfl
@[simp] theorem State.setStack_reg (k : Vector Word Config.stackDepth) (r : Reg) : (s.setStack k).reg r = s.reg r := rfl

/-! ### setSp -/

@[simp] theorem State.setSp_v (k : Fin (Config.stackDepth + 1)) : (s.setSp k).v = s.v := rfl
@[simp] theorem State.setSp_pc (k : Fin (Config.stackDepth + 1)) : (s.setSp k).pc = s.pc := rfl
@[simp] theorem State.setSp_i (k : Fin (Config.stackDepth + 1)) : (s.setSp k).i = s.i := rfl
@[simp] theorem State.setSp_stack (k : Fin (Config.stackDepth + 1)) : (s.setSp k).stack = s.stack := rfl
@[simp] theorem State.setSp_sp (k : Fin (Config.stackDepth + 1)) : (s.setSp k).sp = k := rfl
@[simp] theorem State.setSp_dt (k : Fin (Config.stackDepth + 1)) : (s.setSp k).dt = s.dt := rfl
@[simp] theorem State.setSp_st (k : Fin (Config.stackDepth + 1)) : (s.setSp k).st = s.st := rfl
@[simp] theorem State.setSp_mem (k : Fin (Config.stackDepth + 1)) : (s.setSp k).mem = s.mem := rfl
@[simp] theorem State.setSp_mode (k : Fin (Config.stackDepth + 1)) : (s.setSp k).mode = s.mode := rfl
@[simp] theorem State.setSp_fb (k : Fin (Config.stackDepth + 1)) : (s.setSp k).fb = s.fb := rfl
@[simp] theorem State.setSp_keysDown (k : Fin (Config.stackDepth + 1)) : (s.setSp k).keysDown = s.keysDown := rfl
@[simp] theorem State.setSp_keyRel (k : Fin (Config.stackDepth + 1)) : (s.setSp k).keyRel = s.keyRel := rfl
@[simp] theorem State.setSp_drawn (k : Fin (Config.stackDepth + 1)) : (s.setSp k).drawn = s.drawn := rfl
@[simp] theorem State.setSp_rndIn (k : Fin (Config.stackDepth + 1)) : (s.setSp k).rndIn = s.rndIn := rfl
@[simp] theorem State.setSp_draws (k : Fin (Config.stackDepth + 1)) : (s.setSp k).draws = s.draws := rfl
@[simp] theorem State.setSp_reg (k : Fin (Config.stackDepth + 1)) (r : Reg) : (s.setSp k).reg r = s.reg r := rfl

/-! ### setDt -/

@[simp] theorem State.setDt_v (b : Byte) : (s.setDt b).v = s.v := rfl
@[simp] theorem State.setDt_pc (b : Byte) : (s.setDt b).pc = s.pc := rfl
@[simp] theorem State.setDt_i (b : Byte) : (s.setDt b).i = s.i := rfl
@[simp] theorem State.setDt_stack (b : Byte) : (s.setDt b).stack = s.stack := rfl
@[simp] theorem State.setDt_sp (b : Byte) : (s.setDt b).sp = s.sp := rfl
@[simp] theorem State.setDt_dt (b : Byte) : (s.setDt b).dt = b := rfl
@[simp] theorem State.setDt_st (b : Byte) : (s.setDt b).st = s.st := rfl
@[simp] theorem State.setDt_mem (b : Byte) : (s.setDt b).mem = s.mem := rfl
@[simp] theorem State.setDt_mode (b : Byte) : (s.setDt b).mode = s.mode := rfl
@[simp] theorem State.setDt_fb (b : Byte) : (s.setDt b).fb = s.fb := rfl
@[simp] theorem State.setDt_keysDown (b : Byte) : (s.setDt b).keysDown = s.keysDown := rfl
@[simp] theorem State.setDt_keyRel (b : Byte) : (s.setDt b).keyRel = s.keyRel := rfl
@[simp] theorem State.setDt_drawn (b : Byte) : (s.setDt b).drawn = s.drawn := rfl
@[simp] theorem State.setDt_rndIn (b : Byte) : (s.setDt b).rndIn = s.rndIn := rfl
@[simp] theorem State.setDt_draws (b : Byte) : (s.setDt b).draws = s.draws := rfl
@[simp] theorem State.setDt_reg (b : Byte) (r : Reg) : (s.setDt b).reg r = s.reg r := rfl

/-! ### setSt -/

@[simp] theorem State.setSt_v (b : Byte) : (s.setSt b).v = s.v := rfl
@[simp] theorem State.setSt_pc (b : Byte) : (s.setSt b).pc = s.pc := rfl
@[simp] theorem State.setSt_i (b : Byte) : (s.setSt b).i = s.i := rfl
@[simp] theorem State.setSt_stack (b : Byte) : (s.setSt b).stack = s.stack := rfl
@[simp] theorem State.setSt_sp (b : Byte) : (s.setSt b).sp = s.sp := rfl
@[simp] theorem State.setSt_dt (b : Byte) : (s.setSt b).dt = s.dt := rfl
@[simp] theorem State.setSt_st (b : Byte) : (s.setSt b).st = b := rfl
@[simp] theorem State.setSt_mem (b : Byte) : (s.setSt b).mem = s.mem := rfl
@[simp] theorem State.setSt_mode (b : Byte) : (s.setSt b).mode = s.mode := rfl
@[simp] theorem State.setSt_fb (b : Byte) : (s.setSt b).fb = s.fb := rfl
@[simp] theorem State.setSt_keysDown (b : Byte) : (s.setSt b).keysDown = s.keysDown := rfl
@[simp] theorem State.setSt_keyRel (b : Byte) : (s.setSt b).keyRel = s.keyRel := rfl
@[simp] theorem State.setSt_drawn (b : Byte) : (s.setSt b).drawn = s.drawn := rfl
@[simp] theorem State.setSt_rndIn (b : Byte) : (s.setSt b).rndIn = s.rndIn := rfl
@[simp] theorem State.setSt_draws (b : Byte) : (s.setSt b).draws = s.draws := rfl
@[simp] theorem State.setSt_reg (b : Byte) (r : Reg) : (s.setSt b).reg r = s.reg r := rfl

/-! ### setMem -/

@[simp] theorem State.setMem_v (m : Memory) : (s.setMem m).v = s.v := rfl
@[simp] theorem State.setMem_pc (m : Memory) : (s.setMem m).pc = s.pc := rfl
@[simp] theorem State.setMem_i (m : Memory) : (s.setMem m).i = s.i := rfl
@[simp] theorem State.setMem_stack (m : Memory) : (s.setMem m).stack = s.stack := rfl
@[simp] theorem State.setMem_sp (m : Memory) : (s.setMem m).sp = s.sp := rfl
@[simp] theorem State.setMem_dt (m : Memory) : (s.setMem m).dt = s.dt := rfl
@[simp] theorem State.setMem_st (m : Memory) : (s.setMem m).st = s.st := rfl
@[simp] theorem State.setMem_mem (m : Memory) : (s.setMem m).mem = m := rfl
@[simp] theorem State.setMem_mode (m : Memory) : (s.setMem m).mode = s.mode := rfl
@[simp] theorem State.setMem_fb (m : Memory) : (s.setMem m).fb = s.fb := rfl
@[simp] theorem State.setMem_keysDown (m : Memory) : (s.setMem m).keysDown = s.keysDown := rfl
@[simp] theorem State.setMem_keyRel (m : Memory) : (s.setMem m).keyRel = s.keyRel := rfl
@[simp] theorem State.setMem_drawn (m : Memory) : (s.setMem m).drawn = s.drawn := rfl
@[simp] theorem State.setMem_rndIn (m : Memory) : (s.setMem m).rndIn = s.rndIn := rfl
@[simp] theorem State.setMem_draws (m : Memory) : (s.setMem m).draws = s.draws := rfl
@[simp] theorem State.setMem_reg (m : Memory) (r : Reg) : (s.setMem m).reg r = s.reg r := rfl

/-! ### setMode -/

@[simp] theorem State.setMode_v (m : Mode) : (s.setMode m).v = s.v := rfl
@[simp] theorem State.setMode_pc (m : Mode) : (s.setMode m).pc = s.pc := rfl
@[simp] theorem State.setMode_i (m : Mode) : (s.setMode m).i = s.i := rfl
@[simp] theorem State.setMode_stack (m : Mode) : (s.setMode m).stack = s.stack := rfl
@[simp] theorem State.setMode_sp (m : Mode) : (s.setMode m).sp = s.sp := rfl
@[simp] theorem State.setMode_dt (m : Mode) : (s.setMode m).dt = s.dt := rfl
@[simp] theorem State.setMode_st (m : Mode) : (s.setMode m).st = s.st := rfl
@[simp] theorem State.setMode_mem (m : Mode) : (s.setMode m).mem = s.mem := rfl
@[simp] theorem State.setMode_mode (m : Mode) : (s.setMode m).mode = m := rfl
@[simp] theorem State.setMode_fb (m : Mode) : (s.setMode m).fb = s.fb := rfl
@[simp] theorem State.setMode_keysDown (m : Mode) : (s.setMode m).keysDown = s.keysDown := rfl
@[simp] theorem State.setMode_keyRel (m : Mode) : (s.setMode m).keyRel = s.keyRel := rfl
@[simp] theorem State.setMode_drawn (m : Mode) : (s.setMode m).drawn = s.drawn := rfl
@[simp] theorem State.setMode_rndIn (m : Mode) : (s.setMode m).rndIn = s.rndIn := rfl
@[simp] theorem State.setMode_draws (m : Mode) : (s.setMode m).draws = s.draws := rfl
@[simp] theorem State.setMode_reg (m : Mode) (r : Reg) : (s.setMode m).reg r = s.reg r := rfl

/-! ### setFb -/

@[simp] theorem State.setFb_v (d : Display) : (s.setFb d).v = s.v := rfl
@[simp] theorem State.setFb_pc (d : Display) : (s.setFb d).pc = s.pc := rfl
@[simp] theorem State.setFb_i (d : Display) : (s.setFb d).i = s.i := rfl
@[simp] theorem State.setFb_stack (d : Display) : (s.setFb d).stack = s.stack := rfl
@[simp] theorem State.setFb_sp (d : Display) : (s.setFb d).sp = s.sp := rfl
@[simp] theorem State.setFb_dt (d : Display) : (s.setFb d).dt = s.dt := rfl
@[simp] theorem State.setFb_st (d : Display) : (s.setFb d).st = s.st := rfl
@[simp] theorem State.setFb_mem (d : Display) : (s.setFb d).mem = s.mem := rfl
@[simp] theorem State.setFb_mode (d : Display) : (s.setFb d).mode = s.mode := rfl
@[simp] theorem State.setFb_fb (d : Display) : (s.setFb d).fb = d := rfl
@[simp] theorem State.setFb_keysDown (d : Display) : (s.setFb d).keysDown = s.keysDown := rfl
@[simp] theorem State.setFb_keyRel (d : Display) : (s.setFb d).keyRel = s.keyRel := rfl
@[simp] theorem State.setFb_drawn (d : Display) : (s.setFb d).drawn = s.drawn := rfl
@[simp] theorem State.setFb_rndIn (d : Display) : (s.setFb d).rndIn = s.rndIn := rfl
@[simp] theorem State.setFb_draws (d : Display) : (s.setFb d).draws = s.draws := rfl
@[simp] theorem State.setFb_reg (d : Display) (r : Reg) : (s.setFb d).reg r = s.reg r := rfl

/-! ### setKeysDown -/

@[simp] theorem State.setKeysDown_v (k : Vector Bool 16) : (s.setKeysDown k).v = s.v := rfl
@[simp] theorem State.setKeysDown_pc (k : Vector Bool 16) : (s.setKeysDown k).pc = s.pc := rfl
@[simp] theorem State.setKeysDown_i (k : Vector Bool 16) : (s.setKeysDown k).i = s.i := rfl
@[simp] theorem State.setKeysDown_stack (k : Vector Bool 16) : (s.setKeysDown k).stack = s.stack := rfl
@[simp] theorem State.setKeysDown_sp (k : Vector Bool 16) : (s.setKeysDown k).sp = s.sp := rfl
@[simp] theorem State.setKeysDown_dt (k : Vector Bool 16) : (s.setKeysDown k).dt = s.dt := rfl
@[simp] theorem State.setKeysDown_st (k : Vector Bool 16) : (s.setKeysDown k).st = s.st := rfl
@[simp] theorem State.setKeysDown_mem (k : Vector Bool 16) : (s.setKeysDown k).mem = s.mem := rfl
@[simp] theorem State.setKeysDown_mode (k : Vector Bool 16) : (s.setKeysDown k).mode = s.mode := rfl
@[simp] theorem State.setKeysDown_fb (k : Vector Bool 16) : (s.setKeysDown k).fb = s.fb := rfl
@[simp] theorem State.setKeysDown_keysDown (k : Vector Bool 16) : (s.setKeysDown k).keysDown = k := rfl
@[simp] theorem State.setKeysDown_keyRel (k : Vector Bool 16) : (s.setKeysDown k).keyRel = s.keyRel := rfl
@[simp] theorem State.setKeysDown_drawn (k : Vector Bool 16) : (s.setKeysDown k).drawn = s.drawn := rfl
@[simp] theorem State.setKeysDown_rndIn (k : Vector Bool 16) : (s.setKeysDown k).rndIn = s.rndIn := rfl
@[simp] theorem State.setKeysDown_draws (k : Vector Bool 16) : (s.setKeysDown k).draws = s.draws := rfl
@[simp] theorem State.setKeysDown_reg (k : Vector Bool 16) (r : Reg) : (s.setKeysDown k).reg r = s.reg r := rfl

/-! ### setKeyRel -/

@[simp] theorem State.setKeyRel_v (k : Option Key) : (s.setKeyRel k).v = s.v := rfl
@[simp] theorem State.setKeyRel_pc (k : Option Key) : (s.setKeyRel k).pc = s.pc := rfl
@[simp] theorem State.setKeyRel_i (k : Option Key) : (s.setKeyRel k).i = s.i := rfl
@[simp] theorem State.setKeyRel_stack (k : Option Key) : (s.setKeyRel k).stack = s.stack := rfl
@[simp] theorem State.setKeyRel_sp (k : Option Key) : (s.setKeyRel k).sp = s.sp := rfl
@[simp] theorem State.setKeyRel_dt (k : Option Key) : (s.setKeyRel k).dt = s.dt := rfl
@[simp] theorem State.setKeyRel_st (k : Option Key) : (s.setKeyRel k).st = s.st := rfl
@[simp] theorem State.setKeyRel_mem (k : Option Key) : (s.setKeyRel k).mem = s.mem := rfl
@[simp] theorem State.setKeyRel_mode (k : Option Key) : (s.setKeyRel k).mode = s.mode := rfl
@[simp] theorem State.setKeyRel_fb (k : Option Key) : (s.setKeyRel k).fb = s.fb := rfl
@[simp] theorem State.setKeyRel_keysDown (k : Option Key) : (s.setKeyRel k).keysDown = s.keysDown := rfl
@[simp] theorem State.setKeyRel_keyRel (k : Option Key) : (s.setKeyRel k).keyRel = k := rfl
@[simp] theorem State.setKeyRel_drawn (k : Option Key) : (s.setKeyRel k).drawn = s.drawn := rfl
@[simp] theorem State.setKeyRel_rndIn (k : Option Key) : (s.setKeyRel k).rndIn = s.rndIn := rfl
@[simp] theorem State.setKeyRel_draws (k : Option Key) : (s.setKeyRel k).draws = s.draws := rfl
@[simp] theorem State.setKeyRel_reg (k : Option Key) (r : Reg) : (s.setKeyRel k).reg r = s.reg r := rfl

/-! ### setDrawn -/

@[simp] theorem State.setDrawn_v (b : Bool) : (s.setDrawn b).v = s.v := rfl
@[simp] theorem State.setDrawn_pc (b : Bool) : (s.setDrawn b).pc = s.pc := rfl
@[simp] theorem State.setDrawn_i (b : Bool) : (s.setDrawn b).i = s.i := rfl
@[simp] theorem State.setDrawn_stack (b : Bool) : (s.setDrawn b).stack = s.stack := rfl
@[simp] theorem State.setDrawn_sp (b : Bool) : (s.setDrawn b).sp = s.sp := rfl
@[simp] theorem State.setDrawn_dt (b : Bool) : (s.setDrawn b).dt = s.dt := rfl
@[simp] theorem State.setDrawn_st (b : Bool) : (s.setDrawn b).st = s.st := rfl
@[simp] theorem State.setDrawn_mem (b : Bool) : (s.setDrawn b).mem = s.mem := rfl
@[simp] theorem State.setDrawn_mode (b : Bool) : (s.setDrawn b).mode = s.mode := rfl
@[simp] theorem State.setDrawn_fb (b : Bool) : (s.setDrawn b).fb = s.fb := rfl
@[simp] theorem State.setDrawn_keysDown (b : Bool) : (s.setDrawn b).keysDown = s.keysDown := rfl
@[simp] theorem State.setDrawn_keyRel (b : Bool) : (s.setDrawn b).keyRel = s.keyRel := rfl
@[simp] theorem State.setDrawn_drawn (b : Bool) : (s.setDrawn b).drawn = b := rfl
@[simp] theorem State.setDrawn_rndIn (b : Bool) : (s.setDrawn b).rndIn = s.rndIn := rfl
@[simp] theorem State.setDrawn_draws (b : Bool) : (s.setDrawn b).draws = s.draws := rfl
@[simp] theorem State.setDrawn_reg (b : Bool) (r : Reg) : (s.setDrawn b).reg r = s.reg r := rfl

/-! ### setRndIn -/

@[simp] theorem State.setRndIn_v (bs : List Byte) : (s.setRndIn bs).v = s.v := rfl
@[simp] theorem State.setRndIn_pc (bs : List Byte) : (s.setRndIn bs).pc = s.pc := rfl
@[simp] theorem State.setRndIn_i (bs : List Byte) : (s.setRndIn bs).i = s.i := rfl
@[simp] theorem State.setRndIn_stack (bs : List Byte) : (s.setRndIn bs).stack = s.stack := rfl
@[simp] theorem State.setRndIn_sp (bs : List Byte) : (s.setRndIn bs).sp = s.sp := rfl
@[simp] theorem State.setRndIn_dt (bs : List Byte) : (s.setRndIn bs).dt = s.dt := rfl
@[simp] theorem State.setRndIn_st (bs : List Byte) : (s.setRndIn bs).st = s.st := rfl
@[simp] theorem State.setRndIn_mem (bs : List Byte) : (s.setRndIn bs).mem = s.mem := rfl
@[simp] theorem State.setRndIn_mode (bs : List Byte) : (s.setRndIn bs).mode = s.mode := rfl
@[simp] theorem State.setRndIn_fb (bs : List Byte) : (s.setRndIn bs).fb = s.fb := rfl
@[simp] theorem State.setRndIn_keysDown (bs : List Byte) : (s.setRndIn bs).keysDown = s.keysDown := rfl
@[simp] theorem State.setRndIn_keyRel (bs : List Byte) : (s.setRndIn bs).keyRel = s.keyRel := rfl
@[simp] theorem State.setRndIn_drawn (bs : List Byte) : (s.setRndIn bs).drawn = s.drawn := rfl
@[simp] theorem State.setRndIn_rndIn (bs : List Byte) : (s.setRndIn bs).rndIn = bs := rfl
@[simp] theorem State.setRndIn_draws (bs : List Byte) : (s.setRndIn bs).draws = s.draws := rfl
@[simp] theorem State.setRndIn_reg (bs : List Byte) (r : Reg) : (s.setRndIn bs).reg r = s.reg r := rfl

/-! ### setDraws -/

@[simp] theorem State.setDraws_v (k : Nat) : (s.setDraws k).v = s.v := rfl
@[simp] theorem State.setDraws_pc (k : Nat) : (s.setDraws k).pc = s.pc := rfl
@[simp] theorem State.setDraws_i (k : Nat) : (s.setDraws k).i = s.i := rfl
@[simp] theorem State.setDraws_stack (k : Nat) : (s.setDraws k).stack = s.stack := rfl
@[simp] theorem State.setDraws_sp (k : Nat) : (s.setDraws k).sp = s.sp := rfl
@[simp] theorem State.setDraws_dt (k : Nat) : (s.setDraws k).dt = s.dt := rfl
@[simp] theorem State.setDraws_st (k : Nat) : (s.setDraws k).st = s.st := rfl
@[simp] theorem State.setDraws_mem (k : Nat) : (s.setDraws k).mem = s.mem := rfl
@[simp] theorem State.setDraws_mode (k : Nat) : (s.setDraws k).mode = s.mode := rfl
@[simp] theorem State.setDraws_fb (k : Nat) : (s.setDraws k).fb = s.fb := rfl
@[simp] theorem State.setDraws_keysDown (k : Nat) : (s.setDraws k).keysDown = s.keysDown := rfl
@[simp] theorem State.setDraws_keyRel (k : Nat) : (s.setDraws k).keyRel = s.keyRel := rfl
@[simp] theorem State.setDraws_drawn (k : Nat) : (s.setDraws k).drawn = s.drawn := rfl
@[simp] theorem State.setDraws_rndIn (k : Nat) : (s.setDraws k).rndIn = s.rndIn := rfl
@[simp] theorem State.setDraws_draws (k : Nat) : (s.setDraws k).draws = k := rfl
@[simp] theorem State.setDraws_reg (k : Nat) (r : Reg) : (s.setDraws k).reg r = s.reg r := rfl

/-! ### advance -/

@[simp] theorem State.advance_v : s.advance.v = s.v := rfl
@[simp] theorem State.advance_pc : s.advance.pc = s.pc + 2 := rfl
@[simp] theorem State.advance_i : s.advance.i = s.i := rfl
@[simp] theorem State.advance_stack : s.advance.stack = s.stack := rfl
@[simp] theorem State.advance_sp : s.advance.sp = s.sp := rfl
@[simp] theorem State.advance_dt : s.advance.dt = s.dt := rfl
@[simp] theorem State.advance_st : s.advance.st = s.st := rfl
@[simp] theorem State.advance_mem : s.advance.mem = s.mem := rfl
@[simp] theorem State.advance_mode : s.advance.mode = s.mode := rfl
@[simp] theorem State.advance_fb : s.advance.fb = s.fb := rfl
@[simp] theorem State.advance_keysDown : s.advance.keysDown = s.keysDown := rfl
@[simp] theorem State.advance_keyRel : s.advance.keyRel = s.keyRel := rfl
@[simp] theorem State.advance_drawn : s.advance.drawn = s.drawn := rfl
@[simp] theorem State.advance_rndIn : s.advance.rndIn = s.rndIn := rfl
@[simp] theorem State.advance_draws : s.advance.draws = s.draws := rfl
@[simp] theorem State.advance_reg (r : Reg) : s.advance.reg r = s.reg r := rfl

/-! ### rewind -/

@[simp] theorem State.rewind_v : s.rewind.v = s.v := rfl
@[simp] theorem State.rewind_pc : s.rewind.pc = s.pc - 2 := rfl
@[simp] theorem State.rewind_i : s.rewind.i = s.i := rfl
@[simp] theorem State.rewind_stack : s.rewind.stack = s.stack := rfl
@[simp] theorem State.rewind_sp : s.rewind.sp = s.sp := rfl
@[simp] theorem State.rewind_dt : s.rewind.dt = s.dt := rfl
@[simp] theorem State.rewind_st : s.rewind.st = s.st := rfl
@[simp] theorem State.rewind_mem : s.rewind.mem = s.mem := rfl
@[simp] theorem State.rewind_mode : s.rewind.mode = s.mode := rfl
@[simp] theorem State.rewind_fb : s.rewind.fb = s.fb := rfl
@[simp] theorem State.rewind_keysDown : s.rewind.keysDown = s.keysDown := rfl
@[simp] theorem State.rewind_keyRel : s.rewind.keyRel = s.keyRel := rfl
@[simp] theorem State.rewind_drawn : s.rewind.drawn = s.drawn := rfl
@[simp] theorem State.rewind_rndIn : s.rewind.rndIn = s.rndIn := rfl
@[simp] theorem State.rewind_draws : s.rewind.draws = s.draws := rfl
@[simp] theorem State.rewind_reg (r : Reg) : s.rewind.reg r = s.reg r := rfl

/-! ### Registers -/

@[simp] theorem State.reg_setReg_same (x : Reg) (b : Byte) : (s.setReg x b).reg x = b := by
  simp [State.reg, State.setReg, Vector.get_eq_getElem]

theorem State.reg_setReg_ne {x r : Reg} (h : r ≠ x) (b : Byte) : (s.setReg x b).reg r = s.reg r := by
  have h' : x.val ≠ r.val := fun e => h (Fin.ext e.symm)
  simp [State.reg, State.setReg, Vector.get_eq_getElem, h']

/-- The register file after one register is written. -/
theorem State.reg_setReg (x r : Reg) (b : Byte) : (s.setReg x b).reg r = if r = x then b else s.reg r := by
  split
  · next h => subst h; simp
  · next h => exact State.reg_setReg_ne s h b

/-- Two states with equal registers have equal register files. -/
theorem State.v_ext {s t : State} (h : ∀ r, t.reg r = s.reg r) : t.v = s.v := by
  apply Vector.ext
  intro k hk
  exact h ⟨k, hk⟩

end Sys2Proof.Machine
end

