-- ==== Sys2Proof/Laws/Ops.lean ====
section
/-! SUPPORT. What each shared operation can do, said once: the stack, the memory runs, the fetch, the operand forms, the flag
writes, and the Step. -/

namespace Sys2Proof.Machine

/-! ### Bounds and runs of bytes -/

theorem inBounds_iff (a n : Nat) : inBounds a n = true ↔ n = 0 ∨ a + n ≤ 0x1000 := by
  simp only [inBounds, decide_eq_true_eq, Config.memSize]; omega

/-- A run is read exactly when it is in bounds (R42). -/
theorem State.readBytes_eq_some {s : State} {a n : Nat} {bs : List Byte} :
    s.readBytes a n = some bs ↔ (n = 0 ∨ a + n ≤ 0x1000) ∧ bs = s.mem.readList a n := by
  unfold State.readBytes
  split
  · next h => rw [inBounds_iff] at h; simp [h, eq_comm]
  · next h => rw [inBounds_iff] at h; simp [h]

theorem State.readBytes_eq_none {s : State} {a n : Nat} :
    s.readBytes a n = none ↔ n ≠ 0 ∧ 0x1000 < a + n := by
  unfold State.readBytes
  split
  · next h => rw [inBounds_iff] at h; simp; omega
  · next h => rw [inBounds_iff] at h; simp; omega

/-- A run is stored exactly when it is in bounds, and then only memory changes (R42, R48). -/
theorem State.writeBytes_eq_some {s t : State} {a : Nat} {bs : List Byte} :
    s.writeBytes a bs = some t ↔ (bs.length = 0 ∨ a + bs.length ≤ 0x1000) ∧ t = s.setMem (s.mem.writeList a bs) := by
  unfold State.writeBytes
  split
  · next h => rw [inBounds_iff] at h; simp only [Option.some.injEq]; exact ⟨fun e => ⟨h, e.symm⟩, fun e => e.2.symm⟩
  · next h => rw [inBounds_iff] at h; simp only [h, reduceCtorEq, false_and]

theorem State.writeBytes_eq_none {s : State} {a : Nat} {bs : List Byte} :
    s.writeBytes a bs = none ↔ bs.length ≠ 0 ∧ 0x1000 < a + bs.length := by
  unfold State.writeBytes
  split
  · next h => rw [inBounds_iff] at h; simp only [reduceCtorEq, false_iff]; omega
  · next h => rw [inBounds_iff] at h; simp only [true_iff]; omega

/-! ### Stack -/

/-- A push answers exactly below the full depth: the entry at the cursor becomes `pc`, the cursor moves up (R82). -/
theorem State.pushPc_eq_some {s t : State} :
    s.pushPc = some t ↔ ∃ h : s.sp.val < 24,
      t = (s.setStack (s.stack.set s.sp.val s.pc h)).setSp ⟨s.sp.val + 1, Nat.succ_lt_succ h⟩ := by
  unfold State.pushPc
  split
  · next h => simp only [Option.some.injEq]; exact ⟨fun e => ⟨h, e.symm⟩, fun ⟨_, e⟩ => e.symm⟩
  · next h => simp only [reduceCtorEq, false_iff, not_exists]; intro h'; exact absurd h' h

theorem State.pushPc_eq_none {s : State} : s.pushPc = none ↔ s.sp.val = 24 := by
  have := s.sp.isLt
  unfold State.pushPc
  simp only [Config.stackDepth] at *
  split
  · simp; omega
  · simp; omega

/-- A pop answers exactly above the empty stack: the cursor moves down and `pc` is the entry it then names (R80). -/
theorem State.popPc_eq_some {s t : State} :
    s.popPc = some t ↔ ∃ (k : Nat) (h : k < 24), s.sp.val = k + 1 ∧
      t = (s.setSp ⟨k, Nat.lt_succ_of_lt h⟩).setPc (s.stack.get ⟨k, h⟩) := by
  unfold State.popPc
  split
  · next h => simp [h]
  · next k hk h =>
    simp only [Option.some.injEq]
    refine ⟨fun e => ⟨k, Nat.lt_of_succ_lt_succ hk, by rw [h], e.symm⟩, ?_⟩
    rintro ⟨j, hj, hjk, e⟩
    have : j = k := by rw [h] at hjk; simpa using hjk.symm
    subst this; exact e.symm

theorem State.popPc_eq_none {s : State} : s.popPc = none ↔ s.sp.val = 0 := by
  unfold State.popPc
  split
  · next h => simp [h]
  · next h => simp [h]

/-! ### Program counter and fetch -/

theorem State.skipIf_eq (s : State) (c : Bool) : s.skipIf c = s.setPc (if c then s.pc + 2 else s.pc) := by
  cases c <;> rfl

/-- The fetch answers exactly when both bytes lie in memory (R60), with the lower address as the high byte (R43). -/
theorem State.fetchWord_eq (s : State) :
    s.fetchWord = if s.pc.toNat + 1 < 0x1000 then
      some (wordOfBytes (s.mem.read s.pc.toNat) (s.mem.read (s.pc.toNat + 1))) else none := by
  unfold State.fetchWord
  by_cases h : s.pc.toNat + 1 < 0x1000
  · have hr : s.readBytes s.pc.toNat 2 = some (s.mem.readList s.pc.toNat 2) :=
      State.readBytes_eq_some.mpr ⟨by omega, rfl⟩
    rw [hr]; simp [h, Memory.readList, List.range_succ]
  · have hr : s.readBytes s.pc.toNat 2 = none := State.readBytes_eq_none.mpr ⟨by omega, by omega⟩
    rw [hr]; simp [h]

@[simp] theorem State.fetchWord_advance_mem (s : State) : s.advance.mem = s.mem := rfl

/-! ### Random input -/

/-- A draw takes the next injected byte, or a free value when none is injected; it changes nothing but the random input
(R151). -/
theorem State.drawByte_eq (s : State) :
    s.drawByte = match s.rndIn with
      | b :: rest => (b, s.setRndIn rest)
      | [] => (Config.freeByte s.draws, s.setDraws (s.draws + 1)) := rfl

/-- After a draw the state is the old one but for the random input. -/
theorem State.drawByte_state (s : State) :
    s.drawByte.2 = (s.setRndIn s.drawByte.2.rndIn).setDraws s.drawByte.2.draws := by
  unfold State.drawByte
  cases h : s.rndIn with
  | nil => rfl
  | cons b rest => rfl

/-! ### Operand forms -/

theorem State.keyIndex_eq_some {s : State} {x : Reg} {k : Key} :
    s.keyIndex x = some k ↔ (s.reg x).toNat = k.val := by
  have := k.isLt
  unfold State.keyIndex
  split
  · next h => simp [Fin.ext_iff]
  · next h => simp only [reduceCtorEq, false_iff]; omega

theorem State.keyIndex_eq_none {s : State} {x : Reg} : s.keyIndex x = none ↔ 16 ≤ (s.reg x).toNat := by
  unfold State.keyIndex
  split
  · next h => simp; omega
  · next h => simp; omega

@[simp] theorem State.length_firstRegs (s : State) (x : Reg) : (s.firstRegs (x.val + 1)).length = x.val + 1 := by
  have := x.isLt
  simp only [State.firstRegs, List.length_take, Vector.length_toList]; omega

/-- The k-th byte of a register run is `V[k]` (R114). -/
theorem State.getElem_firstRegs (s : State) (n k : Nat) (h : k < (s.firstRegs n).length) (hk : k < 16) :
    (s.firstRegs n)[k] = s.reg ⟨k, hk⟩ := by
  simp [State.firstRegs, State.reg, Vector.get_eq_getElem]

/-- A block load writes the registers of its run and changes nothing else (R115). -/
theorem State.loadRegs_eq (s : State) (k : Nat) (bs : List Byte) :
    ∃ v, s.loadRegs k bs = { s with v := v } := by
  induction bs generalizing s k with
  | nil => exact ⟨s.v, rfl⟩
  | cons b bs ih =>
    obtain ⟨v, hv⟩ := ih (if h : k < 16 then s.setReg ⟨k, h⟩ b else s) (k + 1)
    refine ⟨v, ?_⟩
    rw [State.loadRegs, hv]
    split <;> rfl

/-- The register `V[r]` after a run is loaded from `V[k]` up (R115). -/
theorem State.reg_loadRegs (s : State) (k : Nat) (bs : List Byte) (r : Reg) :
    (s.loadRegs k bs).reg r = if k ≤ r.val then (bs[r.val - k]?).getD (s.reg r) else s.reg r := by
  induction bs generalizing s k with
  | nil => simp [State.loadRegs]
  | cons b bs ih =>
    have hr := r.isLt
    rw [State.loadRegs, ih]
    by_cases hk : k < 16
    · simp only [hk, dif_pos]
      by_cases h1 : k = r.val
      · have : r = ⟨k, hk⟩ := Fin.ext h1.symm
        subst this
        simp
      · have hne : r ≠ ⟨k, hk⟩ := fun e => h1 (by rw [e])
        rw [State.reg_setReg_ne s hne]
        by_cases h2 : k ≤ r.val
        · obtain ⟨j, hj⟩ : ∃ j, r.val - k = j + 1 := ⟨r.val - k - 1, by omega⟩
          have : r.val - (k + 1) = j := by omega
          simp [h2, hj, this, show k + 1 ≤ r.val by omega]
        · simp [h2, show ¬ k + 1 ≤ r.val by omega]
    · simp [show ¬ k + 1 ≤ r.val by omega, show ¬ k ≤ r.val by omega, hk]

/-! ### Flags -/

/-- The registers after a result and its flag are written: the flag wins at `V[15]` (R90). -/
theorem State.reg_setResult (s : State) (x : Reg) (r : Byte) (f : Bool) (k : Reg) :
    (s.setResult x r f).reg k = if k = 15 then flagByte f else if k = x then r else s.reg k := by
  simp only [State.setResult, State.setFlag, State.reg_setReg, flagReg]

/-- A result and its flag change nothing but the registers. -/
theorem State.setResult_eq (s : State) (x : Reg) (r : Byte) (f : Bool) :
    ∃ v, s.setResult x r f = { s with v := v } := ⟨_, rfl⟩

@[simp] theorem toNat_flagByte (f : Bool) : (flagByte f).toNat = if f then 1 else 0 := by
  cases f <;> rfl

/-! ### Failures and the Step -/

theorem orRaise_eq_next {r : Option State} {kind : State → Fault} {s t : State} :
    orRaise r kind s = .next t ↔ r = some t := by
  cases r <;> simp [orRaise, raise]

theorem orRaise_eq_fault {r : Option State} {kind : State → Fault} {s : State} {f : Fault} :
    orRaise r kind s = .fault f ↔ r = none ∧ f = kind s := by
  cases r <;> simp [orRaise, raise, eq_comm]

/-- What a Step over any dispatch and rules is: the fetch fails, or the word is no instruction, or the instruction's rule runs
on the state with `pc` advanced (R60). -/
theorem stepOf_cases (decode : Word → Except DecodeReject Instr) (run : Instr → State → Answer) (s : State) :
    (0x1000 ≤ s.pc.toNat + 1 ∧ stepOf decode run s = .fault (.addressOverflow s)) ∨
    (s.pc.toNat + 1 < 0x1000 ∧
      ∃ w, w = wordOfBytes (s.mem.read s.pc.toNat) (s.mem.read (s.pc.toNat + 1)) ∧
        ((∃ i, decode w = .ok i ∧ stepOf decode run s = run i s.advance) ∨
         (∃ e, decode w = .error e ∧ stepOf decode run s = .fault (.invalidInstruction s.advance)))) := by
  unfold stepOf
  rw [State.fetchWord_eq]
  by_cases h : s.pc.toNat + 1 < 0x1000
  · refine .inr ⟨h, _, rfl, ?_⟩
    simp only [h, if_true]
    cases hd : decode (wordOfBytes (s.mem.read s.pc.toNat) (s.mem.read (s.pc.toNat + 1))) with
    | ok i => exact .inl ⟨i, rfl, rfl⟩
    | error e => exact .inr ⟨e, rfl, rfl⟩
  · exact .inl ⟨by omega, by simp [h, raise]⟩

/-- What a Step is, every parameter at its default (R60). -/
theorem step_cases (s : State) :
    (0x1000 ≤ s.pc.toNat + 1 ∧ step s = .fault (.addressOverflow s)) ∨
    (s.pc.toNat + 1 < 0x1000 ∧
      ∃ w, w = wordOfBytes (s.mem.read s.pc.toNat) (s.mem.read (s.pc.toNat + 1)) ∧
        ((∃ i, decodeWord w = .ok i ∧ step s = exec i s.advance) ∨
         (∃ e, decodeWord w = .error e ∧ step s = .fault (.invalidInstruction s.advance)))) :=
  stepOf_cases decodeWord exec s

end Sys2Proof.Machine
end

