-- ==== Sys2Proof/Laws/Events.lean ====
section
/-! SUPPORT. The Step at given parameters against the plain one, and what each host event does to a session, said once. -/

namespace Sys2Proof.Machine

/-! ### The open parameters (R2) -/

/-- At the default parameters the instruction rules are those of `exec`. -/
@[simp] theorem execWith_default (i : Instr) (s : State) : execWith Parameters.default i s = exec i s := by
  cases i <;> rfl

/-- At the default parameters the Step is `step`. -/
@[simp] theorem stepWith_default (s : State) : stepWith Parameters.default s = step s :=
  congrArg (fun run => stepOf decodeWord run s) (funext fun i => funext fun t => execWith_default i t)

/-- Only LD Vx,K, DRW and ADD I depend on a parameter. -/
theorem execWith_eq_exec (p : Parameters) {i : Instr} (hk : ∀ x, i ≠ .ldVxK x) (hd : ∀ x y n, i ≠ .drw x y n)
    (ha : ∀ x, i ≠ .addI x) (s : State) : execWith p i s = exec i s := by
  cases i with
  | ldVxK x => exact absurd rfl (hk x)
  | drw x y n => exact absurd rfl (hd x y n)
  | addI x => exact absurd rfl (ha x)
  | _ => rfl

/-! ### Events -/

/-- A failure that a host may go on from goes on from the state it left (R149). -/
theorem Fault.left_of_resume {f : Fault} {s : State} (h : f.resume = some s) : f.left = s := by
  cases f <;> simp_all [Fault.resume, Fault.left]

/-- What a Step event does: the Step's next state, or the state that a failure with a code leaves (R148, R149). -/
theorem Session.stepEvent_cases {h h' : Session} {p : Parameters} {r : Reply} (he : h.stepEvent p = .next (h', r)) :
    (∃ s, stepWith p h.core = .next s ∧ h' = { h with core := s, stepped := true } ∧ r = .done) ∨
    (∃ f, stepWith p h.core = .fault f ∧ f.resume = some f.left ∧
      h' = { h with core := f.left, stepped := true, failed := true } ∧ r = .failed f) := by
  unfold Session.stepEvent at he
  split at he
  · next s hs => cases he; exact .inl ⟨s, hs, rfl, rfl⟩
  · next f hf =>
    split at he
    · next s hs =>
      cases he
      have hl := Fault.left_of_resume hs
      exact .inr ⟨f, hf, hl ▸ hs, by rw [hl], rfl⟩
    · cases he
  · cases he

/-- What any other event does to the core (R152 to R155, R171, R172). -/
theorem Session.event_cases {h h' : Session} {e : HostEvent} {p : Parameters} {r : Reply} (hne : e ≠ .step)
    (he : h.event e p = .next (h', r)) :
    (∃ font, e = .loadFont font ∧ h'.core = h.core.loadFont font) ∨
    (∃ image, e = .loadRom image ∧ h.core.loadRom image = some h'.core) ∨
    (∃ k b, e = .setKey k b ∧ h'.core = h.core.setKey k b) ∨
    (∃ k, e = .releaseKey k ∧ h'.core = h.core.releaseKey k) ∨
    (e = .newFrame ∧ h'.core = h.core.newFrame) ∨ (e = .readDisplay ∧ h' = h) := by
  cases e with
  | step => exact absurd rfl hne
  | reset => cases he
  | loadFont font =>
    simp only [Session.event] at he
    split at he <;> cases he
    exact .inl ⟨font, rfl, rfl⟩
  | loadRom image =>
    simp only [Session.event, Session.loadRomEvent] at he
    split at he
    · cases he
    · split at he
      · next s hs => cases he; exact .inr (.inl ⟨image, rfl, hs⟩)
      · cases he
  | setKey k b => cases he; exact .inr (.inr (.inl ⟨k, b, rfl, rfl⟩))
  | releaseKey k => cases he; exact .inr (.inr (.inr (.inl ⟨k, rfl, rfl⟩)))
  | newFrame => cases he; exact .inr (.inr (.inr (.inr (.inl ⟨rfl, rfl⟩))))
  | readDisplay => cases he; exact .inr (.inr (.inr (.inr (.inr ⟨rfl, rfl⟩))))

end Sys2Proof.Machine
end

