-- ==== Sys2Proof/Laws/PerInstr.lean ====
section
/-! SUPPORT. One lemma per instruction about its encoding: the word the encoder writes meets exactly one row of the opcode
map (R65). -/

namespace Sys2Proof.Laws.RowOf

/-- The rows of the opcode map that the instruction's word meets, by mnemonic: exactly one. -/
def Statement (i : Instr) : Prop :=
  ∃ m, (opcodeTable.filter fun r => r.pattern.selects (cutFields (encode i))).map (·.mnemonic) = [m]

theorem cls : Statement (.cls) := by simp [Statement, encode, opcodeTable, rowsFlow, rowsImmediate, rowsAlu, rowsMiddle, rowsMisc, Pattern.selects]
theorem ret : Statement (.ret) := by simp [Statement, encode, opcodeTable, rowsFlow, rowsImmediate, rowsAlu, rowsMiddle, rowsMisc, Pattern.selects]
theorem jp (nnn : Addr) : Statement (.jp nnn) := by simp [Statement, encode, opcodeTable, rowsFlow, rowsImmediate, rowsAlu, rowsMiddle, rowsMisc, Pattern.selects]
theorem call (nnn : Addr) : Statement (.call nnn) := by simp [Statement, encode, opcodeTable, rowsFlow, rowsImmediate, rowsAlu, rowsMiddle, rowsMisc, Pattern.selects]
theorem seImm (x : Reg) (kk : Byte) : Statement (.seImm x kk) := by simp [Statement, encode, opcodeTable, rowsFlow, rowsImmediate, rowsAlu, rowsMiddle, rowsMisc, Pattern.selects]
theorem sneImm (x : Reg) (kk : Byte) : Statement (.sneImm x kk) := by simp [Statement, encode, opcodeTable, rowsFlow, rowsImmediate, rowsAlu, rowsMiddle, rowsMisc, Pattern.selects]
theorem seReg (x y : Reg) : Statement (.seReg x y) := by simp [Statement, encode, opcodeTable, rowsFlow, rowsImmediate, rowsAlu, rowsMiddle, rowsMisc, Pattern.selects]
theorem ldImm (x : Reg) (kk : Byte) : Statement (.ldImm x kk) := by simp [Statement, encode, opcodeTable, rowsFlow, rowsImmediate, rowsAlu, rowsMiddle, rowsMisc, Pattern.selects]
theorem addImm (x : Reg) (kk : Byte) : Statement (.addImm x kk) := by simp [Statement, encode, opcodeTable, rowsFlow, rowsImmediate, rowsAlu, rowsMiddle, rowsMisc, Pattern.selects]
theorem ldReg (x y : Reg) : Statement (.ldReg x y) := by simp [Statement, encode, opcodeTable, rowsFlow, rowsImmediate, rowsAlu, rowsMiddle, rowsMisc, Pattern.selects]
theorem orReg (x y : Reg) : Statement (.orReg x y) := by simp [Statement, encode, opcodeTable, rowsFlow, rowsImmediate, rowsAlu, rowsMiddle, rowsMisc, Pattern.selects]
theorem andReg (x y : Reg) : Statement (.andReg x y) := by simp [Statement, encode, opcodeTable, rowsFlow, rowsImmediate, rowsAlu, rowsMiddle, rowsMisc, Pattern.selects]
theorem xorReg (x y : Reg) : Statement (.xorReg x y) := by simp [Statement, encode, opcodeTable, rowsFlow, rowsImmediate, rowsAlu, rowsMiddle, rowsMisc, Pattern.selects]
theorem addReg (x y : Reg) : Statement (.addReg x y) := by simp [Statement, encode, opcodeTable, rowsFlow, rowsImmediate, rowsAlu, rowsMiddle, rowsMisc, Pattern.selects]
theorem sub (x y : Reg) : Statement (.sub x y) := by simp [Statement, encode, opcodeTable, rowsFlow, rowsImmediate, rowsAlu, rowsMiddle, rowsMisc, Pattern.selects]
theorem shr (x y : Reg) : Statement (.shr x y) := by simp [Statement, encode, opcodeTable, rowsFlow, rowsImmediate, rowsAlu, rowsMiddle, rowsMisc, Pattern.selects]
theorem subn (x y : Reg) : Statement (.subn x y) := by simp [Statement, encode, opcodeTable, rowsFlow, rowsImmediate, rowsAlu, rowsMiddle, rowsMisc, Pattern.selects]
theorem shl (x y : Reg) : Statement (.shl x y) := by simp [Statement, encode, opcodeTable, rowsFlow, rowsImmediate, rowsAlu, rowsMiddle, rowsMisc, Pattern.selects]
theorem sneReg (x y : Reg) : Statement (.sneReg x y) := by simp [Statement, encode, opcodeTable, rowsFlow, rowsImmediate, rowsAlu, rowsMiddle, rowsMisc, Pattern.selects]
theorem ldI (nnn : Addr) : Statement (.ldI nnn) := by simp [Statement, encode, opcodeTable, rowsFlow, rowsImmediate, rowsAlu, rowsMiddle, rowsMisc, Pattern.selects]
theorem jpV0 (nnn : Addr) : Statement (.jpV0 nnn) := by simp [Statement, encode, opcodeTable, rowsFlow, rowsImmediate, rowsAlu, rowsMiddle, rowsMisc, Pattern.selects]
theorem rnd (x : Reg) (kk : Byte) : Statement (.rnd x kk) := by simp [Statement, encode, opcodeTable, rowsFlow, rowsImmediate, rowsAlu, rowsMiddle, rowsMisc, Pattern.selects]
theorem drw (x y : Reg) (n : Nibble) : Statement (.drw x y n) := by simp [Statement, encode, opcodeTable, rowsFlow, rowsImmediate, rowsAlu, rowsMiddle, rowsMisc, Pattern.selects]
theorem skp (x : Reg) : Statement (.skp x) := by simp [Statement, encode, opcodeTable, rowsFlow, rowsImmediate, rowsAlu, rowsMiddle, rowsMisc, Pattern.selects]
theorem sknp (x : Reg) : Statement (.sknp x) := by simp [Statement, encode, opcodeTable, rowsFlow, rowsImmediate, rowsAlu, rowsMiddle, rowsMisc, Pattern.selects]
theorem ldVxDt (x : Reg) : Statement (.ldVxDt x) := by simp [Statement, encode, opcodeTable, rowsFlow, rowsImmediate, rowsAlu, rowsMiddle, rowsMisc, Pattern.selects]
theorem ldVxK (x : Reg) : Statement (.ldVxK x) := by simp [Statement, encode, opcodeTable, rowsFlow, rowsImmediate, rowsAlu, rowsMiddle, rowsMisc, Pattern.selects]
theorem ldDtVx (x : Reg) : Statement (.ldDtVx x) := by simp [Statement, encode, opcodeTable, rowsFlow, rowsImmediate, rowsAlu, rowsMiddle, rowsMisc, Pattern.selects]
theorem ldStVx (x : Reg) : Statement (.ldStVx x) := by simp [Statement, encode, opcodeTable, rowsFlow, rowsImmediate, rowsAlu, rowsMiddle, rowsMisc, Pattern.selects]
theorem addI (x : Reg) : Statement (.addI x) := by simp [Statement, encode, opcodeTable, rowsFlow, rowsImmediate, rowsAlu, rowsMiddle, rowsMisc, Pattern.selects]
theorem ldF (x : Reg) : Statement (.ldF x) := by simp [Statement, encode, opcodeTable, rowsFlow, rowsImmediate, rowsAlu, rowsMiddle, rowsMisc, Pattern.selects]
theorem ldB (x : Reg) : Statement (.ldB x) := by simp [Statement, encode, opcodeTable, rowsFlow, rowsImmediate, rowsAlu, rowsMiddle, rowsMisc, Pattern.selects]
theorem ldMemVx (x : Reg) : Statement (.ldMemVx x) := by simp [Statement, encode, opcodeTable, rowsFlow, rowsImmediate, rowsAlu, rowsMiddle, rowsMisc, Pattern.selects]
theorem ldVxMem (x : Reg) : Statement (.ldVxMem x) := by simp [Statement, encode, opcodeTable, rowsFlow, rowsImmediate, rowsAlu, rowsMiddle, rowsMisc, Pattern.selects]

end Sys2Proof.Laws.RowOf
end

