-- ==== Sys2Proof/Laws/Step.lean ====
section
/-! SUPPORT. The next Step's instruction, and the instruction placed where the next Step fetches. -/

namespace Sys2Proof.Machine

/-- When the next Step has an instruction, the Step is that instruction's rule on the state with `pc` advanced (R60). -/
theorem step_of_nextInstr {s : State} {i : Instr} (h : s.nextInstr = some i) : step s = exec i s.advance := by
  unfold State.nextInstr at h
  unfold step stepOf
  cases hf : s.fetchWord with
  | none => simp [hf] at h
  | some w =>
    simp only [hf] at h ⊢
    cases hd : decodeWord w with
    | ok j => simp only [hd, Option.some.injEq] at h; subst h; rfl
    | error e => simp [hd] at h

theorem State.withFetchablePc_pc (s : State) : s.withFetchablePc.pc.toNat + 1 < 0x1000 := by
  unfold State.withFetchablePc
  split
  · next h => exact h
  · simp

theorem State.withFetchablePc_mem (s : State) : s.withFetchablePc.mem = s.mem := by
  unfold State.withFetchablePc
  split <;> rfl

/-- A word placed where the next Step fetches is the word it fetches (R43, R60). -/
theorem State.fetchWord_withFetchWord {s : State} (hm : s.mem.wf = true) (nbits w : Nat) :
    (s.withFetchWord nbits w).fetchWord = some (BitVec.ofNat 16 (w % 2 ^ nbits)) := by
  have hp := s.withFetchablePc_pc
  have hw : s.withFetchablePc.mem.wf = true := by rw [s.withFetchablePc_mem]; exact hm
  rw [State.fetchWord_eq]
  simp only [State.withFetchWord, State.setMem_pc, State.setMem_mem, hp, if_true, Option.some.injEq]
  have h0 := Memory.read_writeList_inside (bs := [highByte (BitVec.ofNat 16 (w % 2 ^ nbits)), lowByte (BitVec.ofNat 16 (w % 2 ^ nbits))])
    (a := s.withFetchablePc.pc.toNat) hw (by simp; omega) 0 (by simp)
  have h1 := Memory.read_writeList_inside (bs := [highByte (BitVec.ofNat 16 (w % 2 ^ nbits)), lowByte (BitVec.ofNat 16 (w % 2 ^ nbits))])
    (a := s.withFetchablePc.pc.toNat) hw (by simp; omega) 1 (by simp)
  rw [Nat.add_zero] at h0
  rw [h0, h1]
  exact wordOfBytes_high_low _

end Sys2Proof.Machine
end

