-- ==== Sys2Proof/Tests/Slice0.lean ====
section
/-! SUPPORT. The model's own tests. Expected words, states and outcomes are those of spec/95_test_vectors.md (the vector's id
stands beside each) or of the examples of the spec's rules, never the model's own answers. -/

namespace Sys2Proof.Machine.Tests

/-! ### Small states, and reading an answer -/

/-- The reset state with some registers set. -/
def withRegs (l : List (Reg × Byte)) (s : State := State.reset) : State := l.foldl (fun t p => t.setReg p.1 p.2) s

/-- The state after one Step of the word placed at `pc`, when the Step succeeds. -/
def stepped (w : Nat) (s : State) : Option State :=
  match step (s.withFetchWord 16 w) with
  | .next t => some t
  | _ => none

/-- The fault of one Step of the word placed at `pc`. -/
def stepFault (w : Nat) (s : State) : Option Fault :=
  match step (s.withFetchWord 16 w) with
  | .fault f => some f
  | _ => none

/-- The code of that fault and the `pc` it leaves; `none` inside is the model's own fault. -/
def stepFailure (w : Nat) (s : State) : Option (Option Nat × Word) := (stepFault w s).map fun f => (f.code, f.left.pc)

/-! ### WellFormed: each check refuses an ill-formed term -/

theorem test_overlapping_table_refused :
    patternsWf [⟨0x8, none, none, some 0x4⟩, ⟨0x8, none, none, none⟩] = false := by decide

theorem test_repeated_row_refused :
    patternsWf [⟨0x0, some 0x0, some 0xE, some 0x0⟩, ⟨0x1, none, none, none⟩, ⟨0x0, some 0x0, some 0xE, some 0x0⟩] = false := by
  decide

/-- H-LR-3: 3585 bytes are too many; H-LR-2: 3584 are not. -/
theorem test_long_image_refused :
    imageWf (List.replicate 3585 0) = false ∧ imageWf (List.replicate 3584 0) = true := by
  constructor <;> (unfold imageWf; rw [List.length_replicate]; decide)

/-- Reset memory is canonical; memory out of order, with a blank cell, or past 0xFFF is not. -/
theorem test_memory_form :
    State.reset.mem.wf = true ∧ Memory.wf [(5, 1), (4, 1)] = false ∧ Memory.wf [(4, 0)] = false ∧
    Memory.wf [(0x1000, 1)] = false ∧ Memory.wf [(4, 1), (0xFFF, 2)] = true := by decide

/-! ### Decoding: a word for every row, written out from the pattern column of R65 -/

theorem test_decode_flow :
    decodeTableWord 16 0x00E0 = some .cls ∧ decodeTableWord 16 0x00EE = some .ret ∧
    decodeTableWord 16 0x1234 = some (.jp 0x234) ∧ decodeTableWord 16 0x2FFE = some (.call 0xFFE) ∧
    decodeTableWord 16 0x332A = some (.seImm 3 0x2A) ∧ decodeTableWord 16 0x432A = some (.sneImm 3 0x2A) ∧
    decodeTableWord 16 0x5120 = some (.seReg 1 2) ∧ decodeTableWord 16 0x9120 = some (.sneReg 1 2) ∧
    decodeTableWord 16 0xB300 = some (.jpV0 0x300) := by decide

theorem test_decode_alu :
    decodeTableWord 16 0x6A05 = some (.ldImm 10 5) ∧ decodeTableWord 16 0x7A03 = some (.addImm 10 3) ∧
    decodeTableWord 16 0x8120 = some (.ldReg 1 2) ∧ decodeTableWord 16 0x8121 = some (.orReg 1 2) ∧
    decodeTableWord 16 0x8122 = some (.andReg 1 2) ∧ decodeTableWord 16 0x8123 = some (.xorReg 1 2) ∧
    decodeTableWord 16 0x8124 = some (.addReg 1 2) ∧ decodeTableWord 16 0x8125 = some (.sub 1 2) ∧
    decodeTableWord 16 0x8AB6 = some (.shr 10 11) ∧ decodeTableWord 16 0x8127 = some (.subn 1 2) ∧
    decodeTableWord 16 0x8ABE = some (.shl 10 11) := by decide

theorem test_decode_index_memory_display :
    decodeTableWord 16 0xA2F0 = some (.ldI 0x2F0) ∧ decodeTableWord 16 0xF21E = some (.addI 2) ∧
    decodeTableWord 16 0xF429 = some (.ldF 4) ∧ decodeTableWord 16 0xF333 = some (.ldB 3) ∧
    decodeTableWord 16 0xF255 = some (.ldMemVx 2) ∧ decodeTableWord 16 0xFF65 = some (.ldVxMem 15) ∧
    decodeTableWord 16 0xD12F = some (.drw 1 2 15) := by decide

theorem test_decode_misc :
    decodeTableWord 16 0xC30F = some (.rnd 3 0x0F) ∧ decodeTableWord 16 0xE39E = some (.skp 3) ∧
    decodeTableWord 16 0xE3A1 = some (.sknp 3) ∧ decodeTableWord 16 0xF507 = some (.ldVxDt 5) ∧
    decodeTableWord 16 0xF50A = some (.ldVxK 5) ∧ decodeTableWord 16 0xF515 = some (.ldDtVx 5) ∧
    decodeTableWord 16 0xF518 = some (.ldStVx 5) := by decide

/-- The words of T-INV-0000 to T-INV-FFFF that are no instruction. -/
theorem test_decode_invalid :
    [0x0000, 0x00E1, 0x00EF, 0x0123, 0x01E0, 0x5001, 0x8008, 0x800D, 0x800F, 0x9005, 0xE000, 0xE09F, 0xF000, 0xF01F, 0xF030,
      0xF075, 0xF085, 0xFFFF].all (fun w => decodeTableWord 16 w == none) = true := by decide

/-- One byte is no instruction, and bytes after the first two are left. -/
theorem test_decode_bytes :
    decodeBytes [0x6A] = .error .truncated ∧ decodeBytes [0x6A, 0x05, 0x7A] = .ok (.ldImm 10 5, [0x7A]) ∧
    encodeBytes (.ldImm 10 5) = [0x6A, 0x05] := ⟨rfl, rfl, rfl⟩

/-- A digit of a pattern as a mask and a match. -/
def digitMask : Option Nibble → Nat × Nat
  | none => (0, 0)
  | some d => (15, d.toNat)

/-- A pattern as the match and mask columns of R65. -/
def matchMask (p : Pattern) : Nat × Nat :=
  (p.op.toNat * 0x1000 + (digitMask p.x).2 * 0x100 + (digitMask p.y).2 * 0x10 + (digitMask p.n).2,
   0xF000 + (digitMask p.x).1 * 0x100 + (digitMask p.y).1 * 0x10 + (digitMask p.n).1)

/-- The match and mask columns of R65, row by row. -/
theorem test_table_matches_spec :
    (rowsFlow ++ rowsImmediate).map (fun r => matchMask r.pattern) =
      [(0x00E0, 0xFFFF), (0x00EE, 0xFFFF), (0x1000, 0xF000), (0x2000, 0xF000), (0x3000, 0xF000), (0x4000, 0xF000),
       (0x5000, 0xF00F), (0x6000, 0xF000), (0x7000, 0xF000)] ∧
    (rowsAlu ++ rowsMiddle).map (fun r => matchMask r.pattern) =
      [(0x8000, 0xF00F), (0x8001, 0xF00F), (0x8002, 0xF00F), (0x8003, 0xF00F), (0x8004, 0xF00F), (0x8005, 0xF00F),
       (0x8006, 0xF00F), (0x8007, 0xF00F), (0x800E, 0xF00F), (0x9000, 0xF00F), (0xA000, 0xF000), (0xB000, 0xF000),
       (0xC000, 0xF000), (0xD000, 0xF000), (0xE09E, 0xF0FF), (0xE0A1, 0xF0FF)] ∧
    rowsMisc.map (fun r => matchMask r.pattern) =
      [(0xF007, 0xF0FF), (0xF00A, 0xF0FF), (0xF015, 0xF0FF), (0xF018, 0xF0FF), (0xF01E, 0xF0FF), (0xF029, 0xF0FF),
       (0xF033, 0xF0FF), (0xF055, 0xF0FF), (0xF065, 0xF0FF)] := by decide

/-! ### Single Steps: the vectors of 95_test_vectors.md -/

/-- T-FETCH-1, T-FETCH-4. -/
theorem test_fetch :
    step (State.reset.setPc 0xFFF) = .fault (.addressOverflow (State.reset.setPc 0xFFF)) ∧
    (stepped 0x6001 (State.reset.setPc 0xFFE)).map (fun t => (t.reg 0, t.pc)) = some (1, 0x1000) := ⟨rfl, by decide⟩

/-- T-INV-0000: memory after the program. -/
theorem test_invalid_keeps_advance : stepFailure 0x0000 State.reset = some (some 1, 0x202) := by decide

/-- T-RET-3, T-RET-2. -/
theorem test_ret :
    (stepped 0x00EE { State.reset with sp := 24, stack := State.reset.stack.set 23 0xFFF }).map (fun t => (t.pc, t.sp)) =
      some (0xFFF, 23) ∧ stepFailure 0x00EE State.reset = some (some 3, 0x202) := by decide

/-- T-JP-3. -/
theorem test_jp : (stepped 0x1FFF State.reset).map (·.pc) = some 0xFFF := by decide

/-- T-CALL-2, T-CALL-3. -/
theorem test_call :
    (stepped 0x2300 { State.reset with sp := 23 }).map (fun t => (t.pc, t.sp, t.stack.get 23)) = some (0x300, 24, 0x202) ∧
    stepFailure 0x2300 { State.reset with sp := 24 } = some (some 2, 0x202) := by decide

/-- T-SE-1, T-SE-2. -/
theorem test_se_imm :
    (stepped 0x332A (withRegs [(3, 0x2A)])).map (·.pc) = some 0x204 ∧
    (stepped 0x332A (withRegs [(3, 0x2B)])).map (·.pc) = some 0x202 := by decide

/-- T-SNE-1, T-SNE-2. -/
theorem test_sne_imm :
    (stepped 0x432A (withRegs [(3, 0x2A)])).map (·.pc) = some 0x202 ∧
    (stepped 0x432A (withRegs [])).map (·.pc) = some 0x204 := by decide

/-- T-SER-1, T-SER-2. -/
theorem test_se_reg :
    (stepped 0x5120 (withRegs [(1, 7), (2, 7)])).map (·.pc) = some 0x204 ∧
    (stepped 0x5120 (withRegs [(1, 7), (2, 8)])).map (·.pc) = some 0x202 := by decide

/-- T-SNER-1, T-SNER-2. -/
theorem test_sne_reg :
    (stepped 0x9120 (withRegs [(1, 7), (2, 8)])).map (·.pc) = some 0x204 ∧
    (stepped 0x9120 (withRegs [(1, 7), (2, 7)])).map (·.pc) = some 0x202 := by decide

/-- T-JPV-3, T-JPV-2. -/
theorem test_jp_v0 :
    (stepped 0xBF00 (withRegs [(0, 0xFF), (15, 0x10)])).map (·.pc) = some 0xFFF ∧
    stepFailure 0xBF01 (withRegs [(0, 0xFF)]) = some (some 4, 0x202) := by decide

/-- T-LDI-2, T-ADDI-2, T-MOV-1. -/
theorem test_plain_register_writes :
    (stepped 0x6FFF State.reset).map (·.reg 15) = some 0xFF ∧
    (stepped 0x7101 (withRegs [(1, 0xFF), (15, 7)])).map (fun t => (t.reg 1, t.reg 15)) = some (0, 7) ∧
    (stepped 0x8120 (withRegs [(2, 0x33)])).map (·.reg 1) = some 0x33 := by decide

/-- T-OR-3, T-OR-2, T-AND-1, T-XOR-1. -/
theorem test_logic :
    (stepped 0x81F1 (withRegs [(1, 0xF0), (15, 0x0F)])).map (fun t => (t.reg 1, t.reg 15)) = some (0xFF, 0) ∧
    (stepped 0x8F21 (withRegs [(15, 1), (2, 0xAA)])).map (·.reg 15) = some 0 ∧
    (stepped 0x8122 (withRegs [(1, 0xF3), (2, 0x3F), (15, 1)])).map (fun t => (t.reg 1, t.reg 15)) = some (0x33, 0) ∧
    (stepped 0x8123 (withRegs [(1, 0xFF), (2, 0x0F), (15, 1)])).map (fun t => (t.reg 1, t.reg 15)) = some (0xF0, 0) := by decide

/-- T-ADD-3, T-ADD-5, T-ADD-6. -/
theorem test_add :
    (stepped 0x8124 (withRegs [(1, 0x80), (2, 0x7F), (15, 1)])).map (fun t => (t.reg 1, t.reg 15)) = some (0xFF, 0) ∧
    (stepped 0x8F24 (withRegs [(15, 0xF0), (2, 0x20)])).map (·.reg 15) = some 1 ∧
    (stepped 0x81F4 (withRegs [(1, 0xFF), (15, 1)])).map (fun t => (t.reg 1, t.reg 15)) = some (0, 1) := by decide

/-- T-SUB-2, T-SUB-3, T-SUBN-1, T-SUBN-3. -/
theorem test_sub_subn :
    (stepped 0x8125 (withRegs [(1, 3), (2, 5), (15, 1)])).map (fun t => (t.reg 1, t.reg 15)) = some (0xFE, 0) ∧
    (stepped 0x8125 (withRegs [(1, 7), (2, 7)])).map (fun t => (t.reg 1, t.reg 15)) = some (0, 1) ∧
    (stepped 0x8127 (withRegs [(1, 0x0A), (2, 3), (15, 1)])).map (fun t => (t.reg 1, t.reg 15)) = some (0xF9, 0) ∧
    (stepped 0x8127 (withRegs [(1, 7), (2, 7)])).map (fun t => (t.reg 1, t.reg 15)) = some (0, 1) := by decide

/-- T-SHR-1, T-SHR-4, T-SHL-1, T-SHL-5. -/
theorem test_shifts :
    (stepped 0x8126 (withRegs [(1, 0xAA), (2, 5)])).map (fun t => (t.reg 1, t.reg 2, t.reg 15)) = some (2, 5, 1) ∧
    (stepped 0x81F6 (withRegs [(15, 3)])).map (fun t => (t.reg 1, t.reg 15)) = some (1, 1) ∧
    (stepped 0x812E (withRegs [(2, 0x81)])).map (fun t => (t.reg 1, t.reg 2, t.reg 15)) = some (2, 0x81, 1) ∧
    (stepped 0x8F2E (withRegs [(2, 0x7F), (15, 1)])).map (·.reg 15) = some 0 := by decide

/-- T-LDA-1, T-ADDA-3, T-ADDA-2, T-FONT-2. -/
theorem test_address_register :
    (stepped 0xA2F0 State.reset).map (·.i) = some 0x2F0 ∧
    (stepped 0xF21E (withRegs [(2, 2)] (State.reset.setI 0xFFFF))).map (·.i) = some 1 ∧
    (stepped 0xF21E (withRegs [(2, 1)] (State.reset.setI 0xFFF))).map (fun t => (t.i, t.reg 15)) = some (0x1000, 0) ∧
    (stepped 0xF429 (withRegs [(4, 0xFF)])).map (·.i) = some 0x4FB := by decide

/-- T-BCD-2, T-BCD-3. -/
theorem test_bcd :
    (stepped 0xF333 (withRegs [(3, 0xFF)] (State.reset.setI 0xFFD))).map
      (fun t => (t.mem.read 0xFFD, t.mem.read 0xFFE, t.mem.read 0xFFF, t.i)) = some (2, 5, 5, 0xFFD) ∧
    stepFailure 0xF333 (withRegs [(3, 0xFF)] (State.reset.setI 0xFFE)) = some (some 4, 0x202) := by decide

/-- T-ST-1, T-ST-3. -/
theorem test_block_store :
    (stepped 0xF255 (withRegs [(0, 0x11), (1, 0x22), (2, 0x33), (3, 0x44)] (State.reset.setI 0x400))).map
      (fun t => (t.mem.readList 0x400 4, t.i)) = some ([0x11, 0x22, 0x33, 0], 0x403) ∧
    (stepFault 0xF155 (withRegs [(0, 0x77), (1, 0x88)] (State.reset.setI 0xFFF))).map
      (fun f => (f.code, f.left.pc, f.left.mem.read 0xFFF)) = some (some 4, 0x202, 0) := by decide

/-- T-LDM-1, T-LDM-4. -/
theorem test_block_load :
    (stepped 0xF165 ((State.reset.setI 0x400).setMem [(0x400, 0xAA), (0x401, 0xBB), (0x402, 0xCC)])).map
      (fun t => (t.reg 0, t.reg 1, t.reg 2, t.i)) = some (0xAA, 0xBB, 0, 0x402) ∧
    stepFailure 0xF265 (State.reset.setI 0xFFFE) = some (some 4, 0x202) := by decide

/-- T-CLS-1. -/
theorem test_cls :
    (stepped 0x00E0 ((State.reset.setFb (Display.setPixel Display.blank 31 63 true)).setDrawn true)).map
      (fun t => (Display.pixel t.fb 31 63, t.drawn)) = some (false, true) := by decide

/-- T-DRW-2: the origin wraps, the body is clipped. -/
theorem test_drw_wrap_and_clip :
    (stepped 0xD011 (withRegs [(0, 0x7E), (1, 0x3F)] ((State.reset.setI 0x300).setMem [(0x300, 0xF0)]))).map
      (fun t => (Display.pixel t.fb 31 62, Display.pixel t.fb 31 63, Display.pixel t.fb 31 0, t.reg 15, t.drawn)) =
      some (true, true, false, 0, true) := by decide

/-- T-DRW-4: a collision, and pixels turned off. -/
theorem test_drw_collision :
    (stepped 0xD121 (((State.reset.setI 0x300).setMem [(0x300, 0xFF)]).setFb (Display.setPixel Display.blank 0 7 true))).map
      (fun t => (Display.pixel t.fb 0 0, Display.pixel t.fb 0 7, Display.pixel t.fb 0 8, t.reg 15)) =
      some (true, false, false, 1) := by decide

/-- T-DRW-6, T-DRW-8, T-DRW-9. -/
theorem test_drw_stall_and_bounds :
    (stepped 0xD121 ((State.reset.setI 0x1000).setDrawn true)).map (fun t => (t.pc, t.drawn)) = some (0x200, true) ∧
    stepFailure 0xD122 (withRegs [(2, 0x1F)] (State.reset.setI 0xFFF)) = some (some 4, 0x202) ∧
    (stepped 0xD120 (withRegs [(15, 1)] (State.reset.setI 0x1000))).map (fun t => (t.reg 15, t.drawn)) = some (0, true) := by
  decide

/-- T-RND-1, T-RND-2: the byte injected is masked and used up. -/
theorem test_rnd :
    (stepped 0xC30F (State.reset.injectRandom [0xA7, 0x5C])).map (fun t => (t.reg 3, t.rndIn)) = some (7, [0x5C]) ∧
    (stepped 0xC300 (withRegs [(3, 9)] (State.reset.injectRandom [0xFF]))).map (·.reg 3) = some 0 := by decide

/-- With no byte injected RND still executes, and counts its draw. -/
theorem test_rnd_free : ∃ t, step (State.reset.withFetchWord 16 0xC30F) = .next t ∧ t.draws = 1 := ⟨_, rfl, rfl⟩

/-- T-SKP-5, T-SKP-2, T-SKP-3, T-SKNP-1, T-SKNP-3. -/
theorem test_keys :
    (stepped 0xE39E (withRegs [(3, 15)] (State.reset.setKey 15 true))).map (·.pc) = some 0x204 ∧
    (stepped 0xE39E (withRegs [(3, 5)])).map (·.pc) = some 0x202 ∧
    stepFailure 0xE39E (withRegs [(3, 16)]) = some (none, 0x202) ∧
    (stepped 0xE3A1 (withRegs [(3, 5)] (State.reset.setKey 5 true))).map (·.pc) = some 0x202 ∧
    stepFailure 0xE3A1 (withRegs [(3, 0xFF)]) = some (none, 0x202) := by decide

/-- T-GDT-1, T-SDT-1, T-SST-1. -/
theorem test_timers :
    (stepped 0xF207 (State.reset.setDt 42)).map (·.reg 2) = some 0x2A ∧
    (stepped 0xF215 (withRegs [(2, 0x3C)])).map (fun t => (t.dt, t.st)) = some (60, 0) ∧
    (stepped 0xF218 (withRegs [(2, 5)])).map (fun t => (t.dt, t.st)) = some (0, 5) := by decide

/-- T-KEY-3, T-KEY-2, T-KEY-4. -/
theorem test_key_wait :
    (stepped 0xF50A (State.reset.setKey 7 true)).map (fun t => (t.pc, t.reg 5, t.mode)) = some (0x200, 0, .stopped) ∧
    (stepped 0xF50A (State.reset.releaseKey 7)).map (fun t => (t.pc, t.reg 5, t.keyRel)) = some (0x202, 7, none) ∧
    (stepped 0xF50A (withRegs [(5, 9)] (State.reset.releaseKey 0))).map (fun t => (t.reg 5, t.keyRel)) = some (0, none) := by
  decide

/-! ### Host events -/

/-- H-NF-1, H-NF-3. -/
theorem test_new_frame :
    (State.reset.newFrame.dt, State.reset.newFrame.st) = (0, 0) ∧
    (let t := ({ State.reset with dt := 255, st := 2, drawn := true } : State).newFrame; (t.dt, t.st, t.drawn)) = (254, 1, false) := by
  decide

/-- H-SK-2, H-RK-2. -/
theorem test_key_events :
    (((State.reset.setKey 3 true).setKey 3 false).keysDown.get 3, ((State.reset.setKey 3 true).setKey 3 false).keyRel) =
      (false, none) ∧
    ((State.reset.releaseKey 9).releaseKey 2).keyRel = some 2 := by decide

/-- H-LF-1. -/
theorem test_load_font :
    ((State.reset.loadFont defaultFont).mem.read 0, (State.reset.loadFont defaultFont).mem.read 5,
     (State.reset.loadFont defaultFont).mem.read 49, (State.reset.loadFont defaultFont).mem.read 50) =
      (0xF0, 0x20, 0xF0, 0x00) := by decide

/-- H-LR-1. -/
theorem test_load_rom :
    (State.reset.loadRom [0x6A, 0x05, 0x7A, 0x03]).map (fun t => (t.mem.readList 0x200 4, t.mode, t.pc)) =
      some ([0x6A, 0x05, 0x7A, 0x03], .running, 0x200) := by decide

/-- A second LoadROM, a load after a Step and a second Reset are refused (R150, R174). -/
theorem test_host_duties :
    Session.fresh.event .reset = .refused .resetAfterConstruction ∧
    ({ Session.fresh with romLoaded := true } : Session).event (.loadRom []) = .refused .loadOutsideBoot ∧
    ({ Session.fresh with stepped := true } : Session).event (.loadFont defaultFont) = .refused .loadOutsideBoot :=
  ⟨rfl, rfl, rfl⟩

/-- P9, empty image: the first Step is InvalidInstruction, reported to the host, which may go on. -/
theorem test_empty_image :
    ∃ h f, Session.fresh.event .step = .next (h, .failed f) ∧ f.code = some 1 ∧ h.core.pc = 0x202 ∧ h.failed = true :=
  ⟨_, _, rfl, rfl, rfl, rfl⟩

/-! ### Witnesses: states and operands that meet the hypotheses of each statement, clause by clause, at a boundary -/

theorem witness_EncodeOfDecodeIsTheWord : ∃ i, decodeWord 0xFF65 = .ok i := ⟨_, rfl⟩

theorem witness_InvalidWordsAreThoseOfTheTable :
    (∃ e, decodeWord 0x0000 = .error e) ∧ (∃ e, decodeWord 0x500F = .error e) ∧ (∃ e, decodeWord 0x8008 = .error e) ∧
    (∃ e, decodeWord 0x9001 = .error e) ∧ (∃ e, decodeWord 0xE09D = .error e) ∧ (∃ e, decodeWord 0xFFFF = .error e) :=
  ⟨⟨_, rfl⟩, ⟨_, rfl⟩, ⟨_, rfl⟩, ⟨_, rfl⟩, ⟨_, rfl⟩, ⟨_, rfl⟩⟩

/-- A fetch at 0xFFF; an instruction at 0xFFE; an invalid word at 0x200. -/
theorem witness_StepRunsTheDecodedInstruction :
    0x1000 ≤ (State.reset.setPc 0xFFF).pc.toNat + 1 ∧
    ((State.reset.setPc 0xFFE).pc.toNat + 1 < 0x1000 ∧
      (0x1234 : Word).toNat =
        256 * (((State.reset.setPc 0xFFE).setMem [(0xFFE, 0x12), (0xFFF, 0x34)]).mem.read 0xFFE).toNat +
          (((State.reset.setPc 0xFFE).setMem [(0xFFE, 0x12), (0xFFF, 0x34)]).mem.read 0xFFF).toNat ∧
      decodeWord 0x1234 = .ok (.jp 0x234)) ∧
    (State.reset.pc.toNat + 1 < 0x1000 ∧
      (0x0000 : Word).toNat = 256 * (State.reset.mem.read 0x200).toNat + (State.reset.mem.read 0x201).toNat ∧
      decodeWord 0x0000 = .error (.invalidInstruction 0x0000)) := ⟨by decide, ⟨by decide, by decide, rfl⟩, by decide, by decide, rfl⟩

/-- One state for each line of the list, at the first value that fails. -/
theorem witness_InstructionsFailExactlyAsListed :
    (exec (.call 0x300) { State.reset with sp := 24 } = .fault (.stackOverflow { State.reset with sp := 24 })) ∧
    (exec .ret State.reset = .fault (.stackUnderflow State.reset)) ∧
    (exec (.jpV0 0xFFF) (withRegs [(0, 1)]) = .fault (.addressOverflow (withRegs [(0, 1)]))) ∧
    (exec (.ldB 0) (State.reset.setI 0xFFE) = .fault (.addressOverflow (State.reset.setI 0xFFE))) ∧
    (exec (.ldMemVx 15) (State.reset.setI 0xFF1) = .fault (.addressOverflow (State.reset.setI 0xFF1))) ∧
    (exec (.ldVxMem 0) (State.reset.setI 0x1000) = .fault (.addressOverflow (State.reset.setI 0x1000))) ∧
    (exec (.drw 0 1 1) (State.reset.setI 0x1000) = .fault (.addressOverflow (State.reset.setI 0x1000))) ∧
    (exec (.skp 3) (withRegs [(3, 16)]) = .fault (.unspecifiedKeyIndex (withRegs [(3, 16)]))) ∧
    (exec (.sknp 3) (withRegs [(3, 255)]) = .fault (.unspecifiedKeyIndex (withRegs [(3, 255)]))) :=
  ⟨rfl, rfl, rfl, rfl, rfl, rfl, rfl, rfl, rfl⟩

theorem witness_FailedStepLeavesStateUnchanged :
    (0x1000 ≤ (State.reset.setPc 0xFFF).pc.toNat + 1 ∧ ∃ f, step (State.reset.setPc 0xFFF) = .fault f) ∧
    (State.reset.pc.toNat + 1 < 0x1000 ∧ ∃ f, step State.reset = .fault f) := ⟨⟨by decide, _, rfl⟩, by decide, _, rfl⟩

theorem witness_StepKeepsTheInvariant :
    Inv (State.reset.withFetchWord 16 0x2300) ∧ ∃ t, step (State.reset.withFetchWord 16 0x2300) = .next t :=
  ⟨⟨by decide, by decide, by decide⟩, _, rfl⟩

/-- An event from a session that meets the invariant: a Step that fails and is answered. -/
theorem witness_event_keeps_the_invariant :
    Inv Session.fresh.core ∧ ∃ h f, Session.fresh.event .step = .next (h, .failed f) :=
  ⟨⟨by decide, by decide, by decide⟩, _, _, rfl⟩

/-- A session with a failed Step, a load and a frame in it. -/
theorem witness_EverySessionMeetsTheInvariant :
    ∃ h, Session.fresh.run [.loadRom [0x00, 0xEE, 0x22, 0x02], .step, .newFrame, .step] = .next h ∧ h.failed = true ∧ h.core.sp = 1 :=
  ⟨_, rfl, rfl, rfl⟩

theorem witness_InstructionsWriteOnlyTheirOwnState :
    (∃ t, exec (.call 0x300) State.reset = .next t) ∧ ¬ mayWriteReg 3 (.call 0x300) ∧
    (∃ t, exec (.ldVxMem 2) State.reset = .next t) ∧ ¬ mayWriteReg 3 (.ldVxMem 2) :=
  ⟨⟨_, rfl⟩, id, ⟨_, rfl⟩, by simp [mayWriteReg]⟩

theorem witness_StepIgnoresTheRunMode :
    (∃ t, step (State.reset.withFetchWord 16 0x6A05) = .next t) ∧ (∃ f, step State.reset = .fault f) := ⟨⟨_, rfl⟩, _, rfl⟩

theorem witness_WaitStatesMakeNoProgress :
    (State.reset.withFetchWord 16 0xF50A).keyWait ∧ ((State.reset.setDrawn true).withFetchWord 16 0xD121).drawWait :=
  ⟨⟨⟨5, rfl⟩, rfl⟩, ⟨1, 2, 1, rfl⟩, rfl⟩

theorem witness_EndOfRunIsAFixedPoint :
    (State.reset.withFetchWord 16 0x1200).jumpsToItself = true ∧
    ((State.reset.setPc 0xFFE).withFetchWord 16 0x1FFE).jumpsToItself = true ∧
    ∃ h, Session.fresh.endOfRun [.loadRom [0x12, 0x00], .step] = some h := ⟨by decide, by decide, _, rfl⟩

/-- R179: the launch of `12 00` is no end of a run, the Step after it is; the state that the failed Step of `00 00 12 02`
reaches is none, the next Step's is. -/
theorem test_end_of_run :
    Session.fresh.endOfRun [.loadRom [0x12, 0x00]] = none ∧
    (∃ h, Session.fresh.endOfRun [.loadRom [0x12, 0x00], .step] = some h ∧ h.core.pc = 0x200) ∧
    Session.fresh.endOfRun [.loadRom [0x00, 0x00, 0x12, 0x02], .step] = none ∧
    (∃ h, Session.fresh.endOfRun [.loadRom [0x00, 0x00, 0x12, 0x02], .step, .step] = some h ∧ h.failed = true) :=
  ⟨rfl, ⟨_, rfl, rfl⟩, rfl, _, rfl, rfl⟩

/-- A run whose second successful Step ends it, with a frame before and an event after. -/
theorem witness_EndOfRunIsReachedByASuccessfulStep :
    ∃ h, Session.fresh.endOfRun [.loadRom [0x60, 0x01, 0x12, 0x02], .step, .newFrame, .step, .readDisplay] = some h := ⟨_, rfl⟩

theorem witness_AtMostOneDrawBetweenFrames :
    (Session.fresh.withCore ((State.reset.setDrawn true).withFetchWord 16 0xD121)).core.drawn = true ∧
    HostEvent.newFrame ∉ [HostEvent.step, .setKey 3 true, .step] ∧
    ∃ h, (Session.fresh.withCore ((State.reset.setDrawn true).withFetchWord 16 0xD121)).run [.step, .setKey 3 true, .step] = .next h :=
  ⟨rfl, by decide, _, rfl⟩

theorem witness_stack_statements :
    State.reset.sp.val = 0 ∧ 0 < ({ State.reset with sp := 24 } : State).sp.val ∧
    ({ State.reset with sp := 24 } : State).sp.val = 24 ∧ ({ State.reset with sp := 23 } : State).sp.val < 24 := by decide

/-- The clauses of the four skip statements, `x = y` included. -/
theorem witness_skip_statements :
    (withRegs [(3, 0x2A)]).reg 3 = 0x2A ∧ (withRegs [(3, 0x2B)]).reg 3 ≠ 0x2A ∧
    (withRegs [(1, 7), (2, 7)]).reg 1 = (withRegs [(1, 7), (2, 7)]).reg 2 ∧
    (withRegs [(1, 7), (2, 8)]).reg 1 ≠ (withRegs [(1, 7), (2, 8)]).reg 2 ∧ (15 : Reg) = 15 := by decide

theorem witness_JpV0AddsRegisterZero :
    (0xF00 : Addr).toNat + ((withRegs [(0, 0xFF)]).reg 0).toNat < 0x1000 ∧
    0x1000 ≤ (0xF01 : Addr).toNat + ((withRegs [(0, 0xFF)]).reg 0).toNat := by decide

/-- The statements of the flag-writing instructions put their result clause under `x ≠ 15`. -/
theorem witness_flag_statements : (14 : Reg) ≠ 15 ∧ (0 : Reg) ≠ 15 := by decide

theorem witness_LdBStoresDecimalDigits :
    (State.reset.setI 0xFFD).i.toNat + 2 < 0x1000 ∧ (State.reset.setI 0xFFD).mem.wf = true ∧
    0x1000 ≤ (State.reset.setI 0xFFE).i.toNat + 2 := by decide

/-- For both block copies and their round trip. -/
theorem witness_block_statements :
    (State.reset.setI 0xFF0).i.toNat + (15 : Reg).val < 0x1000 ∧ (State.reset.setI 0xFF0).mem.wf = true ∧
    0x1000 ≤ (State.reset.setI 0xFF1).i.toNat + (15 : Reg).val := by decide

theorem witness_DrwXorsTheSpriteAndReportsCollision :
    State.reset.drawn = false ∧ ((0 : Nibble).toNat = 0 ∨ (State.reset.setI 0x1000).i.toNat + (0 : Nibble).toNat - 1 < 0x1000) ∧
    (State.reset.setI 0xFF1).i.toNat + (15 : Nibble).toNat - 1 < 0x1000 ∧
    (let s := ((State.reset.setI 0x300).setMem [(0x300, 0x80)]).setFb (Display.setPixel Display.blank 0 0 true)
     s.spriteBitAt 1 2 1 0 0 = true ∧ Display.pixel s.fb 0 0 = true) := by decide

/-- The no-collision clause of the same statement: a sprite row of eight 1 bits onto a blank display. -/
theorem witness_DrwWithoutCollision :
    ((State.reset.setI 0x300).setMem [(0x300, 0xFF)]).spriteBitAt 1 2 1 0 7 = true ∧
    ¬ ∃ row col, row < 32 ∧ col < 64 ∧ ((State.reset.setI 0x300).setMem [(0x300, 0xFF)]).spriteBitAt 1 2 1 row col = true ∧
      Display.pixel ((State.reset.setI 0x300).setMem [(0x300, 0xFF)]).fb row col = true := by
  refine ⟨by decide, ?_⟩
  rintro ⟨row, col, _, _, _, h⟩
  exact Bool.noConfusion ((Display.pixel_blank row col).symm.trans h)

theorem witness_DrwStallsOrOverflows :
    (State.reset.setDrawn true).drawn = true ∧ (State.reset.setI 0xFF2).drawn = false ∧ 1 ≤ (15 : Nibble).toNat ∧
    0x1000 ≤ (State.reset.setI 0xFF2).i.toNat + (15 : Nibble).toNat - 1 := by decide

theorem witness_RndMasksOneFreshByte :
    (State.reset.injectRandom [0xA7]).rndIn = 0xA7 :: [] ∧ State.reset.rndIn = [] := by decide

theorem witness_SkpAndSknpTestTheKey :
    ((withRegs [(3, 15)]).reg 3).toNat = (15 : Key).val ∧ 16 ≤ ((withRegs [(3, 16)]).reg 3).toNat := by decide

/-- Every parameter away from its default, and an opcode table of one row. -/
def otherParameters : Parameters := ⟨true, .fault, .fault, [⟨"JP_nnn", ⟨0x0, none, none, none⟩, fun f => .jp f.nnn⟩]⟩

/-- The default opcode table is well formed (R65), and so is the other one. -/
theorem test_parameters_wf : Parameters.default.wf = true ∧ otherParameters.wf = true := by decide

/-- A Step and a session at parameters that are not the defaults. -/
theorem test_step_at_other_parameters :
    (∃ t, stepWith otherParameters (State.reset.withFetchWord 16 0x0234) = .next t ∧ t.pc = 0x234) ∧
    (∃ f, stepWith otherParameters (State.reset.withFetchWord 16 0x1234) = .fault f ∧ f.code = some 1) ∧
    (∃ h, Session.fresh.run [.loadRom [0xF5, 0x0A], .step] { Parameters.default with keyWaitMode := true } = .next h ∧
      h.core.mode = .waitingKey) := ⟨⟨_, rfl, rfl⟩, ⟨_, rfl, rfl⟩, _, rfl, rfl⟩

theorem witness_StepAtParametersRunsTheDecodedInstruction :
    0x1000 ≤ (State.reset.setPc 0xFFF).pc.toNat + 1 ∧ State.reset.pc.toNat + 1 < 0x1000 ∧
    (0x0000 : Word).toNat = 256 * (State.reset.mem.read 0x200).toNat + (State.reset.mem.read 0x201).toNat ∧
    decodeWith otherParameters.opcodeTable 0x0000 = .ok (.jp 0) ∧
    ∀ r ∈ Parameters.default.opcodeTable, r.pattern.selects (cutFields 0x0000) = false :=
  ⟨by decide, by decide, by decide, rfl, by decide⟩

/-- Both values of each parameter, at the first sum that passes 65535 and the last that does not. -/
theorem witness_ParametersReachOnlyTheirInstructions :
    otherParameters.drwN0 = .fault ∧ otherParameters.addIWrap = .fault ∧ Parameters.default.drwN0 = .execute ∧
    Parameters.default.addIWrap = .wrap ∧ Parameters.default.keyWaitMode = false ∧ State.reset.drawn = false ∧
    65536 ≤ (State.reset.setI 0xFFFF).i.toNat + ((withRegs [(2, 1)]).reg 2).toNat ∧
    (State.reset.setI 0xFFFE).i.toNat + ((withRegs [(2, 1)]).reg 2).toNat < 65536 ∧ (1 : Nibble) ≠ 0 := by decide

/-- For LD Vx,K with either value of KEYWAIT_MODE. -/
theorem witness_key_wait_statements :
    State.reset.keyRel = none ∧ (State.reset.releaseKey 15).keyRel = some 15 ∧ otherParameters.keyWaitMode = true := by decide

theorem witness_SetKeySetsOneLevel : (0 : Key) ≠ 15 := by decide

theorem witness_LoadsWriteTheirBytes :
    State.reset.mem.wf = true ∧ (List.replicate 3584 (1 : Byte)).length ≤ 3584 ∧ 3584 < (List.replicate 3585 (1 : Byte)).length := by
  simp only [List.length_replicate]
  decide

theorem witness_OnlyAStepMovesThePc :
    HostEvent.newFrame ≠ .step ∧ (∃ h, Session.fresh.event .newFrame = .next (h, .done)) ∧
    (∃ h, Session.fresh.event (.loadRom [0x12, 0x00]) = .next (h, .done)) := ⟨by decide, ⟨_, rfl⟩, _, rfl⟩

/-- A failure after the fetch, and one of the fetch. -/
theorem witness_HostGoesOnAfterAFailure :
    (∃ f, step Session.fresh.core = .fault f ∧ f.code = some 1) ∧
    (∃ f, step (Session.fresh.withCore (State.reset.setPc 0xFFF)).core = .fault f ∧ f.code = some 4) ∧
    0x1000 ≤ (Session.fresh.withCore (State.reset.setPc 0xFFF)).core.pc.toNat + 1 := ⟨⟨_, rfl, rfl⟩, ⟨_, rfl, rfl⟩, by decide⟩

end Sys2Proof.Machine.Tests
end

section
/-! PROOFS. Control transfer (spec 40_control_flow.md): the jump and the four skips. -/

namespace Sys2Proof.Machine

/-! ### What writing `pc` and skipping do to the state -/

/-- Writing `pc` leaves every other piece of state alone. -/
theorem State.keptBut_setPc (s : State) (w : Word) : KeptBut [.pc] s (s.setPc w) := by
  intro f hf
  cases f with
  | pc => exact absurd (List.mem_singleton_self _) hf
  | mem => exact fun _ => rfl
  | rnd => exact ⟨rfl, rfl⟩
  | _ => rfl

/-- A skip moves `pc` by 2 when its condition holds (R83, R88). -/
@[simp] theorem State.skipIf_pc (s : State) (c : Bool) :
    (s.skipIf c).pc = if c then s.pc + 2 else s.pc := by
  rw [State.skipIf_eq, State.setPc_pc]

/-- A skip, taken or not, touches nothing but `pc`. -/
theorem State.keptBut_skipIf (s : State) (c : Bool) : KeptBut [.pc] s (s.skipIf c) := by
  rw [State.skipIf_eq]
  exact State.keptBut_setPc s _

/-- The zero extension of an address has the address's value (R63). -/
@[simp] theorem toNat_addrWord (nnn : Addr) : (addrWord nnn).toNat = nnn.toNat :=
  BitVec.toNat_setWidth_of_le (by decide)

/-! ### The instructions' rules in terms of those operations -/

theorem exec_jp (nnn : Addr) (s : State) : exec (.jp nnn) s = .next (s.setPc (addrWord nnn)) := rfl

theorem exec_seImm (x : Reg) (kk : Byte) (s : State) :
    exec (.seImm x kk) s = .next (s.skipIf (s.reg x == kk)) := rfl

theorem exec_sneImm (x : Reg) (kk : Byte) (s : State) :
    exec (.sneImm x kk) s = .next (s.skipIf (s.reg x != kk)) := rfl

theorem exec_seReg (x y : Reg) (s : State) :
    exec (.seReg x y) s = .next (s.skipIf (s.reg x == s.reg y)) := rfl

theorem exec_sneReg (x y : Reg) (s : State) :
    exec (.sneReg x y) s = .next (s.skipIf (s.reg x != s.reg y)) := rfl

/-! ### The statements -/

/-- Settles O19: JP is one write of `pc`, of the zero-extended address. -/
theorem jpSetsThePc : Obligations.JpSetsThePc := by
  intro nnn s
  exact ⟨_, exec_jp nnn s, by simp, s.keptBut_setPc _⟩

/-- Settles O22: the skip's condition is the comparison with the immediate. -/
theorem seImmediateSkipsOnEqual : Obligations.SeImmediateSkipsOnEqual := by
  intro x kk s
  refine ⟨_, exec_seImm x kk s, ?taken, ?notTaken, s.keptBut_skipIf _⟩
  case taken => intro heq; simp [heq]
  case notTaken => intro hne; simp [hne]

/-- Settles O23: the skip's condition is the negated comparison with the immediate. -/
theorem sneImmediateSkipsOnDifferent : Obligations.SneImmediateSkipsOnDifferent := by
  intro x kk s
  refine ⟨_, exec_sneImm x kk s, ?taken, ?notTaken, s.keptBut_skipIf _⟩
  case taken => intro hne; simp [hne]
  case notTaken => intro heq; simp [heq]

/-- Settles O24: the skip's condition is the comparison of the registers, true of a register and itself. -/
theorem seRegisterSkipsOnEqual : Obligations.SeRegisterSkipsOnEqual := by
  intro x y s
  refine ⟨_, exec_seReg x y s, ?taken, ?notTaken, ?same, s.keptBut_skipIf _⟩
  case taken => intro heq; simp [heq]
  case notTaken => intro hne; simp [hne]
  case same => rintro rfl; simp

/-- Settles O25: the skip's condition is the negated comparison of the registers, false of a register and itself. -/
theorem sneRegisterSkipsOnDifferent : Obligations.SneRegisterSkipsOnDifferent := by
  intro x y s
  refine ⟨_, exec_sneReg x y s, ?taken, ?notTaken, ?same, s.keptBut_skipIf _⟩
  case taken => intro hne; simp [hne]
  case notTaken => intro heq; simp [heq]
  case same => rintro rfl; simp

end Sys2Proof.Machine
end

section
/-! PROOFS. Arithmetic and logic (spec 41_arith_logic.md): the three instructions that write one register and no flag. -/

namespace Sys2Proof.Machine

/-! ### What writing one register leaves alone -/

/-- Writing one register leaves every other register alone. -/
theorem State.regsKeptBut_setReg (s : State) (x : Reg) (b : Byte) : RegsKeptBut [x] s (s.setReg x b) := by
  intro r hr
  exact State.reg_setReg_ne s (List.mem_singleton.not.mp hr) b

/-- Writing a register leaves every piece of state but the registers alone. -/
theorem State.keptBut_setReg (s : State) (x : Reg) (b : Byte) : KeptBut [.v] s (s.setReg x b) := by
  intro f hf
  cases f with
  | v => exact absurd (List.mem_singleton_self _) hf
  | mem => exact fun _ => rfl
  | rnd => exact ⟨rfl, rfl⟩
  | _ => rfl

/-! ### The word of an instruction, as a number, decodes to it -/

/-- The opcode map's first row that an instruction's word meets is the instruction's own, and the row's `build` gives back its
operands (R65, R66). -/
theorem decodeWord_encode (i : Instr) : decodeWord (encode i) = .ok i := by
  cases i <;>
    simp [decodeWord, decodeWith, encode, opcodeTable, rowsFlow, rowsImmediate, rowsAlu, rowsMiddle, rowsMisc,
      Pattern.selects, Fields.rx, Fields.ry]

/-- The number of an instruction's word decodes to the instruction. -/
theorem decodesTo_of_toNat_encode {w : Nat} {i : Instr} (hw : (encode i).toNat = w) : DecodesTo w i := by
  rw [DecodesTo, ← hw, BitVec.ofNat_toNat, BitVec.setWidth_eq]
  exact decodeWord_encode i

/-! ### The instructions' rules as one write of a register -/

theorem exec_ldImm (x : Reg) (kk : Byte) (s : State) : exec (.ldImm x kk) s = .next (s.setReg x kk) := rfl

theorem exec_addImm (x : Reg) (kk : Byte) (s : State) :
    exec (.addImm x kk) s = .next (s.setReg x (s.reg x + kk)) := rfl

theorem exec_ldReg (x y : Reg) (s : State) : exec (.ldReg x y) s = .next (s.setReg x (s.reg y)) := rfl

/-! ### The statements -/

/-- Settles O27: the word 6xkk is the instruction's XKK word, and the rule is one write of the immediate. -/
theorem ldImmediateSetsTheRegister : Obligations.LdImmediateSetsTheRegister := by
  intro x kk
  constructor
  · exact decodesTo_of_toNat_encode (toNat_packXkk 0x6 (regField x) kk)
  · intro s
    exact ⟨_, exec_ldImm x kk s, s.reg_setReg_same x _, s.regsKeptBut_setReg x _, s.keptBut_setReg x _⟩

/-- Settles O28: the word 7xkk is the instruction's XKK word, and the rule is one write of the 8-bit sum. -/
theorem addImmediateWrapsWithoutFlag : Obligations.AddImmediateWrapsWithoutFlag := by
  intro x kk
  constructor
  · exact decodesTo_of_toNat_encode (toNat_packXkk 0x7 (regField x) kk)
  · intro s
    refine ⟨_, exec_addImm x kk s, ?sum, s.regsKeptBut_setReg x _, s.keptBut_setReg x _⟩
    case sum => rw [State.reg_setReg_same, BitVec.toNat_add]

/-- Settles O29: the rule is one write of the old source register. -/
theorem ldRegisterCopies : Obligations.LdRegisterCopies := by
  intro x y s
  exact ⟨_, exec_ldReg x y s, s.reg_setReg_same x _, s.regsKeptBut_setReg x _, s.keptBut_setReg x _⟩

end Sys2Proof.Machine
end

section
/-! PROOFS. Address register and data memory (spec 42_index_memory.md): the load of `I` and the store of decimal digits. -/

namespace Sys2Proof.Machine

/-! ### What writing `I` and writing memory leave alone -/

/-- Writing `I` leaves every other piece of state alone. -/
theorem State.keptBut_setI (s : State) (w : Word) : KeptBut [.i] s (s.setI w) := by
  intro f hf
  cases f with
  | i => exact absurd (List.mem_singleton_self _) hf
  | mem => exact fun _ => rfl
  | rnd => exact ⟨rfl, rfl⟩
  | _ => rfl

/-- Replacing the memory leaves every other piece of state alone. -/
theorem State.keptBut_setMem (s : State) (m : Memory) : KeptBut [.mem] s (s.setMem m) := by
  intro f hf
  cases f with
  | mem => exact absurd (List.mem_singleton_self _) hf
  | rnd => exact ⟨rfl, rfl⟩
  | _ => rfl

/-! ### A run of bytes stored from `I` up, read back through the addressing mode (R116) -/

/-- The j-th byte of a run stored from `I` up is read back at `I + j`. -/
theorem State.read_writeList_ea {s : State} {bs : List Byte} (hm : s.mem.wf = true)
    (hb : s.ea bs.length ≤ 0x1000) (j : Nat) (hj : j < bs.length) :
    (s.mem.writeList (s.ea 0) bs).read (s.ea j) = bs[j] :=
  Memory.read_writeList_inside (a := s.i.toNat) hm hb j hj

/-- A run stored from `I` up leaves every byte that is none of the run's alone. -/
theorem State.read_writeList_of_ne_ea {s : State} {bs : List Byte} {a : Nat}
    (ha : ∀ j < bs.length, a ≠ s.ea j) : (s.mem.writeList (s.ea 0) bs).read a = s.mem.read a := by
  refine Memory.read_writeList_outside ?_
  by_contra hin
  obtain ⟨hlo, hhi⟩ : s.i.toNat ≤ a ∧ a < s.i.toNat + bs.length := by simpa [State.ea] using hin
  exact ha (a - s.i.toNat) (by omega) (Nat.add_sub_of_le hlo).symm

/-! ### The decimal digits of a byte (R113) -/

@[simp] theorem length_bcdDigits (v : Byte) : (bcdDigits v).length = 3 := rfl

/-- The three bytes are the hundreds, tens and ones digit of the byte's value. -/
theorem bcdDigits_map_toNat (v : Byte) :
    (bcdDigits v).map BitVec.toNat = [v.toNat / 100, v.toNat / 10 % 10, v.toNat % 10] := by
  simp [bcdDigits]

/-- The j-th digit read back as a number. -/
theorem toNat_getElem_bcdDigits (v : Byte) (j : Nat) (hj : j < 3) :
    (bcdDigits v)[j].toNat = [v.toNat / 100, v.toNat / 10 % 10, v.toNat % 10][j] :=
  (List.getElem_map BitVec.toNat (h := by simpa using hj)).symm.trans (getElem_congr_coll (bcdDigits_map_toNat v))

/-! ### The instructions' rules in terms of those operations -/

theorem exec_ldI (nnn : Addr) (s : State) : exec (.ldI nnn) s = .next (s.setI (addrWord nnn)) := rfl

theorem exec_ldB (x : Reg) (s : State) :
    exec (.ldB x) s = orRaise (s.writeBytes (s.ea 0) (bcdDigits (s.reg x))) .addressOverflow s := rfl

/-- Inside the address space LD B,Vx is one store of the digits from `I` up (R113). -/
theorem exec_ldB_of_lt {s : State} (x : Reg) (h : s.i.toNat + 2 < 0x1000) :
    exec (.ldB x) s = .next (s.setMem (s.mem.writeList (s.ea 0) (bcdDigits (s.reg x)))) := by
  rw [exec_ldB, orRaise_eq_next, State.writeBytes_eq_some]
  exact ⟨.inr h, rfl⟩

/-- Past the address space LD B,Vx fails and the state is the one it was given (R42, R113). -/
theorem exec_ldB_of_ge {s : State} (x : Reg) (h : 0x1000 ≤ s.i.toNat + 2) :
    exec (.ldB x) s = .fault (.addressOverflow s) := by
  rw [exec_ldB, orRaise_eq_fault, State.writeBytes_eq_none]
  exact ⟨⟨by simp, Nat.lt_succ_of_le h⟩, rfl⟩

/-! ### The statements -/

/-- Settles O36: the rule is one write of `I`, of the zero-extended address. -/
theorem ldISetsTheAddressRegister : Obligations.LdISetsTheAddressRegister := by
  intro nnn s
  exact ⟨_, exec_ldI nnn s, by simp, s.keptBut_setI _⟩

/-- Settles O39: the rule is one bounded store of the three digits from `I` up; the digits are read back at `I + 0` to
`I + 2`, and an address that is none of these lies outside the run. -/
theorem ldBStoresDecimalDigits : Obligations.LdBStoresDecimalDigits := by
  intro x s
  constructor
  · intro hlt hm
    have digitAt : ∀ j (hj : j < 3), ((s.mem.writeList (s.ea 0) (bcdDigits (s.reg x))).read (s.ea j)).toNat =
        [(s.reg x).toNat / 100, (s.reg x).toNat / 10 % 10, (s.reg x).toNat % 10][j] := by
      intro j hj
      rw [State.read_writeList_ea (bs := bcdDigits (s.reg x)) hm hlt j hj, toNat_getElem_bcdDigits _ j hj]
    refine ⟨_, exec_ldB_of_lt x hlt, digitAt 0 (by decide), digitAt 1 (by decide), digitAt 2 (by decide),
      ?others, s.keptBut_setMem _⟩
    case others =>
      intro a h0 h1 h2
      refine State.read_writeList_of_ne_ea fun j hj => ?_
      match j, hj with
      | 0, _ => exact h0
      | 1, _ => exact h1
      | 2, _ => exact h2
  · exact exec_ldB_of_ge x

end Sys2Proof.Machine
end

section
/-! PROOFS. Timers (spec 44_timers_keys_random.md): the read of the delay counter and the writes of both counters. -/

namespace Sys2Proof.Machine

/-! ### What writing a counter leaves alone -/

/-- Writing the delay counter leaves every other piece of state alone. -/
theorem State.keptBut_setDt (s : State) (b : Byte) : KeptBut [.dt] s (s.setDt b) := by
  intro f hf
  cases f with
  | dt => exact absurd (List.mem_singleton_self _) hf
  | mem => exact fun _ => rfl
  | rnd => exact ⟨rfl, rfl⟩
  | _ => rfl

/-- Writing the sound counter leaves every other piece of state alone. -/
theorem State.keptBut_setSt (s : State) (b : Byte) : KeptBut [.st] s (s.setSt b) := by
  intro f hf
  cases f with
  | st => exact absurd (List.mem_singleton_self _) hf
  | mem => exact fun _ => rfl
  | rnd => exact ⟨rfl, rfl⟩
  | _ => rfl

/-! ### The instructions' rules as one write of a register or of a counter -/

theorem exec_ldVxDt (x : Reg) (s : State) : exec (.ldVxDt x) s = .next (s.setReg x s.dt) := rfl

theorem exec_ldDtVx (x : Reg) (s : State) : exec (.ldDtVx x) s = .next (s.setDt (s.reg x)) := rfl

theorem exec_ldStVx (x : Reg) (s : State) : exec (.ldStVx x) s = .next (s.setSt (s.reg x)) := rfl

/-! ### The statements -/

/-- Settles O48: the rule is one write of the register, of the delay counter. -/
theorem ldVxDtReadsTheDelayCounter : Obligations.LdVxDtReadsTheDelayCounter := by
  intro x s
  exact ⟨_, exec_ldVxDt x s, s.reg_setReg_same x _, s.regsKeptBut_setReg x _, s.keptBut_setReg x _⟩

/-- Settles O51: each rule is one write of its counter, of the register's value. -/
theorem timersAreSetFromARegister : Obligations.TimersAreSetFromARegister := by
  intro x s
  constructor
  · exact ⟨_, exec_ldDtVx x s, s.setDt_dt _, s.keptBut_setDt _⟩
  · exact ⟨_, exec_ldStVx x s, s.setSt_st _, s.keptBut_setSt _⟩

end Sys2Proof.Machine
end

section
/-! PROOFS. The host's events (spec 60_exceptions.md): NewFrame and SetKey. -/

namespace Sys2Proof.Machine

/-! ### Frames compose -/

/-- What both of two changes leave alone, the two together leave alone. -/
theorem Kept.trans {s t u : State} {f : Field} (hst : Kept s t f) (htu : Kept t u f) : Kept s u f := by
  cases f with
  | mem => exact fun a => (htu a).trans (hst a)
  | rnd => exact ⟨htu.1.trans hst.1, htu.2.trans hst.2⟩
  | _ => exact Eq.trans htu hst

/-- Two changes in a row touch at most what one of them may touch. -/
theorem KeptBut.trans {s t u : State} {may may' : List Field} (hst : KeptBut may s t) (htu : KeptBut may' t u) :
    KeptBut (may ++ may') s u := by
  intro f hf
  rw [List.mem_append, not_or] at hf
  obtain ⟨hmay, hmay'⟩ := hf
  exact (hst f hmay).trans (htu f hmay')

/-! ### What writing the draw limiter and the key levels leave alone -/

/-- Writing the draw limiter leaves every other piece of state alone. -/
theorem State.keptBut_setDrawn (s : State) (b : Bool) : KeptBut [.drawn] s (s.setDrawn b) := by
  intro f hf
  cases f with
  | drawn => exact absurd (List.mem_singleton_self _) hf
  | mem => exact fun _ => rfl
  | rnd => exact ⟨rfl, rfl⟩
  | _ => rfl

/-- Replacing the key levels leaves every other piece of state alone. -/
theorem State.keptBut_setKeysDown (s : State) (k : Vector Bool 16) : KeptBut [.keysDown] s (s.setKeysDown k) := by
  intro f hf
  cases f with
  | keysDown => exact absurd (List.mem_singleton_self _) hf
  | mem => exact fun _ => rfl
  | rnd => exact ⟨rfl, rfl⟩
  | _ => rfl

/-! ### NewFrame (R152) -/

/-- Counting down is the natural numbers' subtraction of 1, which stops at 0. -/
@[simp] theorem toNat_countDown (b : Byte) : (countDown b).toNat = b.toNat - 1 := by
  unfold countDown
  split
  case isTrue hzero => simp [hzero]
  case isFalse hne => bv_omega

@[simp] theorem State.newFrame_dt (s : State) : s.newFrame.dt = countDown s.dt := rfl
@[simp] theorem State.newFrame_st (s : State) : s.newFrame.st = countDown s.st := rfl
@[simp] theorem State.newFrame_drawn (s : State) : s.newFrame.drawn = false := rfl

/-- NewFrame is a write of each counter and of the limiter, so it touches nothing else. -/
theorem State.keptBut_newFrame (s : State) : KeptBut [.dt, .st, .drawn] s s.newFrame :=
  ((s.keptBut_setDt _).trans (State.keptBut_setSt _ _)).trans (State.keptBut_setDrawn _ _)

/-! ### SetKey (R153) -/

theorem State.setKey_get_same (s : State) (k : Key) (b : Bool) : (s.setKey k b).keysDown.get k = b :=
  Vector.getElem_set_self k.isLt

theorem State.setKey_get_of_ne (s : State) {j k : Key} (b : Bool) (h : j ≠ k) :
    (s.setKey k b).keysDown.get j = s.keysDown.get j :=
  Vector.getElem_set_ne k.isLt j.isLt fun hkj => h (Fin.ext hkj.symm)

/-- SetKey is one write of the key levels, so it touches nothing else, the pending edge included. -/
theorem State.keptBut_setKey (s : State) (k : Key) (b : Bool) : KeptBut [.keysDown] s (s.setKey k b) :=
  s.keptBut_setKeysDown _

/-! ### The statements -/

/-- Settles O52: each counter goes through `countDown`, the limiter is written clear, and the frames of the three writes
compose. -/
theorem newFrameCountsDown : Obligations.NewFrameCountsDown := by
  intro s
  refine ⟨?delay, ?sound, s.newFrame_drawn, s.keptBut_newFrame⟩
  case delay => rw [State.newFrame_dt, toNat_countDown]
  case sound => rw [State.newFrame_st, toNat_countDown]

/-- Settles O53: SetKey is one write of the key levels at the key's own index. -/
theorem setKeySetsOneLevel : Obligations.SetKeySetsOneLevel := by
  intro s k b
  exact ⟨s.setKey_get_same k b, fun _ hj => s.setKey_get_of_ne b hj, s.keptBut_setKey k b⟩

end Sys2Proof.Machine
end

section
/-! PROOFS. Encoding and decoding (spec 30_encoding.md): the round trips, the opcode map as numbers and the invalid words. -/

namespace Sys2Proof

/-! ### The word a pattern makes of a word's digits -/

/-- The register field of a nibble's register is the nibble (R63). -/
@[simp] theorem regField_toFin_nibble (x : Nibble) : regField x.toFin = x := rfl

/-- A pattern with the digits of some fields in its operand places (R65). -/
def Pattern.fill (p : Pattern) (f : Fields) : Word := packNibbles p.op (p.x.getD f.x) (p.y.getD f.y) (p.n.getD f.n)

/-- A digit that agrees with a pattern's digit is what the pattern's place is filled with. -/
theorem getD_of_all_beq {d : Option Nibble} {a : Nibble} (h : d.all (· == a) = true) : d.getD a = a := by
  cases d with
  | none => rfl
  | some b => exact beq_iff_eq.mp h

/-- A word that a pattern selects is the pattern filled with the word's own digits. -/
theorem Pattern.fill_of_selects {p : Pattern} {w : Word} (h : p.selects (cutFields w) = true) :
    p.fill (cutFields w) = w := by
  simp only [Pattern.selects, Bool.and_eq_true, beq_iff_eq] at h
  obtain ⟨⟨⟨hop, hx⟩, hy⟩, hn⟩ := h
  rw [Pattern.fill, hop, getD_of_all_beq hx, getD_of_all_beq hy, getD_of_all_beq hn, packNibbles_cutFields]

/-- Row by row, the instruction built from a word's fields encodes to the row's pattern filled with the word's digits: the
row keeps every operand digit and the encoder writes every fixed one (R65). -/
theorem encode_build_of_mem_opcodeTable {r : Row} (hr : r ∈ opcodeTable) (w : Word) :
    encode (r.build (cutFields w)) = r.pattern.fill (cutFields w) := by
  rw [← packNibbles_cutFields w]
  generalize (cutFields w).op = op, (cutFields w).x = x, (cutFields w).y = y, (cutFields w).n = n
  revert r
  simp [opcodeTable, rowsFlow, rowsImmediate, rowsAlu, rowsMiddle, rowsMisc, Pattern.fill, encode, Fields.rx, Fields.ry]

/-- What the dispatch answers comes from a row of the table that selects the word. -/
theorem decodeWith_eq_ok {table : List Row} {w : Word} {i : Instr} (h : decodeWith table w = .ok i) :
    ∃ r ∈ table, r.pattern.selects (cutFields w) = true ∧ i = r.build (cutFields w) := by
  unfold decodeWith at h
  split at h
  · next r hr =>
    cases h
    exact ⟨r, List.mem_of_find?_eq_some hr, List.find?_some (p := fun r : Row => r.pattern.selects (cutFields w)) hr, rfl⟩
  · cases h

/-- The dispatch rejects a word, by its name, exactly when no row of the table selects it (R66). -/
theorem decodeWith_eq_error_iff {table : List Row} {w : Word} :
    decodeWith table w = .error (.invalidInstruction w) ↔
      ∀ r ∈ table, r.pattern.selects (cutFields w) = false := by
  unfold decodeWith
  cases h : table.find? fun r => r.pattern.selects (cutFields w) with
  | some r =>
    simp only [reduceCtorEq, false_iff, not_forall]
    exact ⟨r, List.mem_of_find?_eq_some h, by simp [List.find?_some h]⟩
  | none => simpa using h

/-! ### The numbers of a word's digits -/

/-- The class digit of a word, as a number (R61). -/
theorem toNat_packNibbles_div (op x y n : Nibble) : (packNibbles op x y n).toNat / 0x1000 = op.toNat := by
  rw [toNat_packNibbles]; omega

/-- The last digit of a word, as a number (R61). -/
theorem toNat_packNibbles_mod_16 (op x y n : Nibble) : (packNibbles op x y n).toNat % 16 = n.toNat := by
  rw [toNat_packNibbles]; omega

/-- The low byte of a word, as a number (R61). -/
theorem toNat_packNibbles_mod_256 (op x y n : Nibble) :
    (packNibbles op x y n).toNat % 256 = 0x10 * y.toNat + n.toNat := by
  rw [toNat_packNibbles]; omega

end Sys2Proof

namespace Sys2Proof.Machine

/-! ### The statements -/

/-- Settles O1: the two bytes of an instruction are its word again, and the word of every instruction decodes to it. -/
theorem decodeOfEncodeIsTheInstruction : Obligations.DecodeOfEncodeIsTheInstruction := by
  intro i rest
  simp only [encodeBytes, List.cons_append, List.nil_append, decodeBytes, wordOfBytes_high_low, decodeWord_encode]

/-- Settles O2: the row that answers selects the word, so filling its pattern with the word's digits gives the word. -/
theorem encodeOfDecodeIsTheWord : Obligations.EncodeOfDecodeIsTheWord := by
  intro w i h
  obtain ⟨r, hr, hsel, rfl⟩ := decodeWith_eq_ok h
  rw [encode_build_of_mem_opcodeTable hr, Pattern.fill_of_selects hsel]

/-- Settles O4: each number is the number of the row's encoded word, by the number of its format (R62). -/
theorem opcodeMapDecodesEveryRow : Obligations.OpcodeMapDecodesEveryRow := by
  refine ⟨decodesTo_of_toNat_encode rfl, decodesTo_of_toNat_encode rfl, ?address, ?immediate, ?registers, ?sprite,
    ?register⟩
  case address =>
    intro nnn
    refine ⟨?_, ?_, ?_, ?_⟩ <;> exact decodesTo_of_toNat_encode (toNat_packNnn _ nnn)
  case immediate =>
    intro x kk
    refine ⟨?_, ?_, ?_, ?_, ?_⟩ <;> exact decodesTo_of_toNat_encode (toNat_packXkk _ (regField x) kk)
  case registers =>
    intro x y
    refine ⟨?_, ?_, ?_, ?_, ?_, ?_, ?_, ?_, ?_, ?_, ?_⟩ <;>
      exact decodesTo_of_toNat_encode (by simp [encode, toNat_packNibbles] <;> omega)
  case sprite =>
    intro x y n
    exact decodesTo_of_toNat_encode (toNat_packNibbles _ (regField x) (regField y) n)
  case register =>
    intro x
    refine ⟨?_, ?_, ?_, ?_, ?_, ?_, ?_, ?_, ?_, ?_, ?_⟩ <;>
      exact decodesTo_of_toNat_encode (by simp [encode, toNat_packNibbles]; omega)

/-- Settles O3: the word is taken apart into its four digits, so that each number of the table is a condition on digits; then
class by class (the high digit), the rows that could select the word are exactly those the table leaves out. -/
theorem invalidWordsAreThoseOfTheTable : Obligations.InvalidWordsAreThoseOfTheTable := by
  intro w
  rw [decodeWord, decodeWith_eq_error_iff, ← packNibbles_cutFields w]
  generalize (cutFields w).op = op, (cutFields w).x = x, (cutFields w).y = y, (cutFields w).n = n
  simp only [opcodeTable, rowsFlow, BitVec.ofNat_eq_ofNat, rowsImmediate, List.cons_append, List.nil_append,
    rowsAlu, rowsMiddle, rowsMisc, List.mem_cons, List.not_mem_nil, or_false, Pattern.selects, cutFields_packNibbles,
    Nat.reduceAdd, Bool.and_eq_false_imp, Bool.and_eq_true, beq_iff_eq, ← BitVec.toNat_inj, and_imp, forall_eq_or_imp,
    BitVec.toNat_ofNat, Nat.reducePow, Nat.zero_mod, Option.all_some, Nat.reduceMod, beq_eq_false_iff_ne, ne_eq,
    Nat.one_mod, Option.all_none, Bool.true_eq_false, imp_false, not_true_eq_false, forall_const, Nat.mod_succ,
    forall_eq, toNat_packNibbles_div, toNat_packNibbles_mod_16, toNat_packNibbles_mod_256, not_or]
  have ho := op.isLt; have hx := x.isLt; have hy := y.isLt; have hn := n.isLt
  simp only [toNat_packNibbles]
  generalize op.toNat = o, x.toNat = x, y.toNat = y, n.toNat = n at *
  have two : ∀ c, 0x10 * y + n = c ↔ c / 16 = y ∧ c % 16 = n := by omega
  have three : ∀ c, 0x100 * x + 0x10 * y + n = c ↔ c / 256 = x ∧ c / 16 % 16 = y ∧ c % 16 = n := by omega
  interval_cases o
  all_goals simp [two, three]
  all_goals omega

/-- A word of the table of invalid encodings decodes to no instruction (R66). -/
theorem not_decodesTo_of_invalid {w : Nat}
    (h : decodeWord (BitVec.ofNat 16 w) = .error (.invalidInstruction (BitVec.ofNat 16 w))) (i : Instr) :
    ¬ DecodesTo w i := by
  simp [DecodesTo, h]

/-- Settles O5: each word that decodes is the encoded word of its instruction, and each that does not is in the table of
invalid encodings. -/
theorem wordsOfTheSpecDecode : Obligations.WordsOfTheSpecDecode := by
  refine ⟨?_, ?_, ?_, ?_, ?_, ?_, ?_, ?_, ?_, ?_, ?_, not_decodesTo_of_invalid ?_, not_decodesTo_of_invalid ?_,
    not_decodesTo_of_invalid ?_⟩
  case refine_12 | refine_13 | refine_14 => exact (invalidWordsAreThoseOfTheTable _).mpr (by decide)
  all_goals exact decodesTo_of_toNat_encode rfl

end Sys2Proof.Machine
end

section
/-! PROOFS. The Step over any dispatch (spec 30_encoding.md section 1): a fetch that fails, a word that decodes, a word that
does not. -/

namespace Sys2Proof.Machine

section AnyDispatch

variable {decode : Word → Except DecodeReject Instr} {run : Instr → State → Answer} {s : State} {w : Word}

/-! ### The fetch and the three ways a Step goes -/

/-- The fetched word is the one whose high byte is at `pc` and whose low byte is at `pc + 1` (R43, R60). -/
theorem State.fetchWord_of_toNat_eq (h : s.pc.toNat + 1 < 0x1000)
    (hw : w.toNat = 256 * (s.mem.read s.pc.toNat).toNat + (s.mem.read (s.pc.toNat + 1)).toNat) :
    s.fetchWord = some w := by
  rw [State.fetchWord_eq, if_pos h, Option.some.injEq]
  exact BitVec.eq_of_toNat_eq ((toNat_wordOfBytes _ _).trans hw.symm)

theorem stepOf_of_unfetchable (h : 0x1000 ≤ s.pc.toNat + 1) :
    stepOf decode run s = .fault (.addressOverflow s) := by
  simp [stepOf, State.fetchWord_eq, show ¬ s.pc.toNat + 1 < 0x1000 by omega, raise]

theorem stepOf_of_decode_ok {i : Instr} (hf : s.fetchWord = some w) (hd : decode w = .ok i) :
    stepOf decode run s = run i s.advance := by
  simp [stepOf, hf, hd]

theorem stepOf_of_decode_error {e : DecodeReject} (hf : s.fetchWord = some w) (hd : decode w = .error e) :
    stepOf decode run s = .fault (.invalidInstruction s.advance) := by
  simp [stepOf, hf, hd, raise]

/-- A failed Step leaves the state as it was when the fetch failed, and with `pc` advanced otherwise, provided the rules leave
the state they are given (R145). -/
theorem stepOf_fault {f : Fault} (hrun : ∀ i t g, run i t = .fault g → g.left = t) (hf : stepOf decode run s = .fault f) :
    (0x1000 ≤ s.pc.toNat + 1 ∧ f = .addressOverflow s) ∨ (s.pc.toNat + 1 < 0x1000 ∧ f.left = s.advance) := by
  obtain ⟨hpc, hstep⟩ | ⟨hpc, w, -, ⟨i, -, hstep⟩ | ⟨e, -, hstep⟩⟩ := stepOf_cases decode run s
  · rw [hstep] at hf
    cases hf
    exact .inl ⟨hpc, rfl⟩
  · exact .inr ⟨hpc, hrun i s.advance f (hstep.symm.trans hf)⟩
  · rw [hstep] at hf
    cases hf
    exact .inr ⟨hpc, rfl⟩

/-- A Step that answers has run the rule of some instruction on the state with `pc` advanced, and `pc` was fetchable. -/
theorem stepOf_next {t : State} (ht : stepOf decode run s = .next t) :
    s.pc.toNat + 1 < 0x1000 ∧ ∃ i, run i s.advance = .next t := by
  obtain ⟨-, hstep⟩ | ⟨hpc, w, -, ⟨i, -, hstep⟩ | ⟨e, -, hstep⟩⟩ := stepOf_cases decode run s
  · cases hstep.symm.trans ht
  · exact ⟨hpc, i, hstep.symm.trans ht⟩
  · cases hstep.symm.trans ht

end AnyDispatch

/-! ### The statements -/

/-- Settles O6: the three ways a Step goes, at the default dispatch and rules. -/
theorem stepRunsTheDecodedInstruction : Obligations.StepRunsTheDecodedInstruction := by
  intro s
  refine ⟨stepOf_of_unfetchable, fun hpc w hw => ?_⟩
  have hf := State.fetchWord_of_toNat_eq hpc hw
  exact ⟨fun i hd => stepOf_of_decode_ok hf hd, fun hd => stepOf_of_decode_error hf hd⟩

/-- Settles O59: the same three ways, at the dispatch and rules of the parameters. -/
theorem stepAtParametersRunsTheDecodedInstruction : Obligations.StepAtParametersRunsTheDecodedInstruction := by
  intro p s
  refine ⟨stepWith_default s, stepOf_of_unfetchable, fun hpc w hw => ?_⟩
  have hf := State.fetchWord_of_toNat_eq hpc hw
  exact ⟨fun i hd => stepOf_of_decode_ok hf hd, fun hno => stepOf_of_decode_error hf (decodeWith_eq_error_iff.mpr hno)⟩

end Sys2Proof.Machine
end

section
/-! PROOFS. What the shared operations leave alone: the frames of the remaining setters and of the operations built from
setters. -/

namespace Sys2Proof.Machine

/-! ### Frames -/

/-- What a change may write, a wider list allows too. -/
theorem KeptBut.mono {s t : State} {may may' : List Field} (h : KeptBut may s t) (hsub : may ⊆ may') : KeptBut may' s t :=
  fun f hf => h f fun hmem => hf (hsub hmem)

/-- What both of two changes leave alone among the registers, the two together leave alone. -/
theorem RegsKeptBut.trans {s t u : State} {may may' : List Reg} (hst : RegsKeptBut may s t) (htu : RegsKeptBut may' t u) :
    RegsKeptBut (may ++ may') s u := by
  intro r hr
  rw [List.mem_append, not_or] at hr
  obtain ⟨hmay, hmay'⟩ := hr
  exact (htu r hmay').trans (hst r hmay)

/-- A change that may not write the register file keeps every register. -/
theorem KeptBut.reg_eq {s t : State} {may : List Field} (h : KeptBut may s t) (hv : .v ∉ may) (r : Reg) : t.reg r = s.reg r :=
  congrArg (fun v => v.get r) (show t.v = s.v from h .v hv)

/-! ### The setters -/

theorem State.keptBut_setStack (s : State) (k : Vector Word Config.stackDepth) : KeptBut [.stack] s (s.setStack k) := by
  intro f; cases f <;> simp [Kept]

theorem State.keptBut_setSp (s : State) (k : Fin (Config.stackDepth + 1)) : KeptBut [.sp] s (s.setSp k) := by
  intro f; cases f <;> simp [Kept]

theorem State.keptBut_setMode (s : State) (m : Mode) : KeptBut [.mode] s (s.setMode m) := by
  intro f; cases f <;> simp [Kept]

theorem State.keptBut_setFb (s : State) (d : Display) : KeptBut [.fb] s (s.setFb d) := by
  intro f; cases f <;> simp [Kept]

theorem State.keptBut_setKeyRel (s : State) (k : Option Key) : KeptBut [.keyRel] s (s.setKeyRel k) := by
  intro f; cases f <;> simp [Kept]

theorem State.keptBut_setRndIn (s : State) (bs : List Byte) : KeptBut [.rnd] s (s.setRndIn bs) := by
  intro f; cases f <;> simp [Kept]

theorem State.keptBut_setDraws (s : State) (k : Nat) : KeptBut [.rnd] s (s.setDraws k) := by
  intro f; cases f <;> simp [Kept]

/-! ### The operations built from setters -/

theorem State.keptBut_rewind (s : State) : KeptBut [.pc] s s.rewind := s.keptBut_setPc _

/-- A draw takes from the random input and writes nothing else (R151). -/
theorem State.keptBut_drawByte (s : State) : KeptBut [.rnd] s s.drawByte.2 := by
  rw [s.drawByte_state]
  exact ((s.keptBut_setRndIn _).trans (State.keptBut_setDraws _ _)).mono (by simp)

/-- A result and its flag are two writes of registers (R90). -/
theorem State.keptBut_setResult (s : State) (x : Reg) (b : Byte) (f : Bool) : KeptBut [.v] s (s.setResult x b f) :=
  ((s.keptBut_setReg x b).trans (State.keptBut_setReg _ flagReg _)).mono (by simp)

theorem State.regsKeptBut_setResult (s : State) (x : Reg) (b : Byte) (f : Bool) :
    RegsKeptBut [x, 15] s (s.setResult x b f) :=
  (s.regsKeptBut_setReg x b).trans (State.regsKeptBut_setReg _ flagReg _)

/-- A block load writes registers and nothing else (R115). -/
theorem State.keptBut_loadRegs (s : State) (k : Nat) (bs : List Byte) : KeptBut [.v] s (s.loadRegs k bs) := by
  obtain ⟨v, hv⟩ := s.loadRegs_eq k bs
  rw [hv]
  intro f; cases f <;> simp [Kept]

theorem State.keptBut_bumpI (s : State) (x : Reg) : KeptBut [.i] s (s.bumpI x) := s.keptBut_setI _

/-- A sprite writes the display, the flag and the limiter (R121). -/
theorem State.keptBut_drawSprite (s : State) (x y : Reg) (sprite : List Byte) :
    KeptBut [.v, .fb, .drawn] s (s.drawSprite x y sprite) :=
  (((s.keptBut_setFb _).trans (State.keptBut_setReg _ flagReg _)).trans (State.keptBut_setDrawn _ _)).mono (by simp)

theorem State.regsKeptBut_drawSprite (s : State) (x y : Reg) (sprite : List Byte) :
    RegsKeptBut [15] s (s.drawSprite x y sprite) :=
  State.regsKeptBut_setReg (s.setFb _) flagReg _

end Sys2Proof.Machine
end

section
/-! PROOFS. Control transfer (spec 40_control_flow.md): RET, CALL and JP V0. -/

namespace Sys2Proof.Machine

/-! ### The rules in terms of the stack and of `pc` -/

theorem exec_ret (s : State) : exec .ret s = orRaise s.popPc .stackUnderflow s := rfl

theorem exec_call (nnn : Addr) (s : State) :
    exec (.call nnn) s = orRaise (s.pushPc.map fun t => t.setPc (addrWord nnn)) .stackOverflow s := rfl

theorem exec_jpV0 (nnn : Addr) (s : State) :
    exec (.jpV0 nnn) s = if nnn.toNat + (s.reg 0).toNat < 0x1000 then
      .next (s.setPc (BitVec.ofNat 16 (nnn.toNat + (s.reg 0).toNat))) else .fault (.addressOverflow s) := rfl

/-- RET answers exactly above the empty stack (R80). -/
theorem exec_ret_eq_next {s t : State} :
    exec .ret s = .next t ↔ ∃ (k : Nat) (h : k < 24), s.sp.val = k + 1 ∧
      t = (s.setSp ⟨k, Nat.lt_succ_of_lt h⟩).setPc (s.stack.get ⟨k, h⟩) := by
  rw [exec_ret, orRaise_eq_next, State.popPc_eq_some]

/-- CALL answers exactly below the full stack (R82). -/
theorem exec_call_eq_next {nnn : Addr} {s t : State} :
    exec (.call nnn) s = .next t ↔ ∃ h : s.sp.val < 24,
      t = ((s.setStack (s.stack.set s.sp.val s.pc h)).setSp ⟨s.sp.val + 1, Nat.succ_lt_succ h⟩).setPc (addrWord nnn) := by
  rw [exec_call, orRaise_eq_next, Option.map_eq_some_iff]
  constructor
  · rintro ⟨u, hu, rfl⟩
    obtain ⟨h, rfl⟩ := State.pushPc_eq_some.mp hu
    exact ⟨h, rfl⟩
  · rintro ⟨h, rfl⟩
    exact ⟨_, State.pushPc_eq_some.mpr ⟨h, rfl⟩, rfl⟩

theorem exec_ret_eq_fault {s : State} {f : Fault} :
    exec .ret s = .fault f ↔ s.sp.val = 0 ∧ f = .stackUnderflow s := by
  rw [exec_ret, orRaise_eq_fault, State.popPc_eq_none]

theorem exec_call_eq_fault {nnn : Addr} {s : State} {f : Fault} :
    exec (.call nnn) s = .fault f ↔ s.sp.val = 24 ∧ f = .stackOverflow s := by
  rw [exec_call, orRaise_eq_fault, Option.map_eq_none_iff, State.pushPc_eq_none]

/-- Two writes, of the cursor and of `pc`, are a pop's frame. -/
theorem keptBut_of_exec_ret {s t : State} (h : exec .ret s = .next t) : KeptBut [.pc, .sp] s t := by
  obtain ⟨k, hk, -, rfl⟩ := exec_ret_eq_next.mp h
  exact ((s.keptBut_setSp _).trans (State.keptBut_setPc _ _)).mono (by simp)

/-- Three writes, of the entry, the cursor and `pc`, are a call's frame. -/
theorem keptBut_of_exec_call {nnn : Addr} {s t : State} (h : exec (.call nnn) s = .next t) :
    KeptBut [.pc, .stack, .sp] s t := by
  obtain ⟨hsp, rfl⟩ := exec_call_eq_next.mp h
  exact (((s.keptBut_setStack _).trans (State.keptBut_setSp _ _)).trans (State.keptBut_setPc _ _)).mono (by simp)

/-! ### The statements -/

/-- Settles O18: RET is the pop, which answers exactly above the empty stack. -/
theorem retPopsTheReturnAddress : Obligations.RetPopsTheReturnAddress := by
  intro s
  refine ⟨fun hempty => exec_ret_eq_fault.mpr ⟨hempty, rfl⟩, fun hpos => ?_⟩
  have hsp : s.sp.val < 25 := s.sp.isLt
  have hret := exec_ret_eq_next (s := s).mpr ⟨s.sp.val - 1, by omega, by omega, rfl⟩
  refine ⟨_, hret, ?cursor, ?pc, keptBut_of_exec_ret hret⟩
  case cursor => exact Nat.sub_add_cancel hpos
  case pc => exact fun k hk => congrArg s.stack.get (Fin.ext hk.symm)

/-- Settles O20: CALL is the push and the jump, which answer exactly below the full stack. -/
theorem callPushesTheAdvancedPc : Obligations.CallPushesTheAdvancedPc := by
  intro nnn s
  refine ⟨fun hfull => exec_call_eq_fault.mpr ⟨hfull, rfl⟩, fun hsp => ?_⟩
  have hcall := exec_call_eq_next (nnn := nnn).mpr ⟨hsp, rfl⟩
  refine ⟨_, hcall, toNat_addrWord nnn, rfl, ?entries, keptBut_of_exec_call hcall⟩
  case entries =>
    intro k
    simp [Vector.get_eq_getElem, Vector.getElem_set, eq_comm]

/-- Settles O21: RET's cursor names the entry that CALL wrote, and no write comes between. -/
theorem retUndoesCall : Obligations.RetUndoesCall := by
  intro nnn s hsp
  refine ⟨_, _, exec_call_eq_next.mpr ⟨hsp, rfl⟩, exec_ret_eq_next.mpr ⟨s.sp.val, hsp, rfl, rfl⟩, ?pc, rfl⟩
  case pc => simp [Vector.get_eq_getElem]

/-- Settles O26: the rule is one write of `pc`, of the unreduced sum, which 16 bits hold. -/
theorem jpV0AddsRegisterZero : Obligations.JpV0AddsRegisterZero := by
  intro nnn s
  rw [exec_jpV0]
  constructor
  · intro hlt
    rw [if_pos hlt]
    refine ⟨_, rfl, ?target, s.keptBut_setPc _⟩
    case target => exact Nat.mod_eq_of_lt (by omega)
  · intro hge
    exact if_neg (by omega)

end Sys2Proof.Machine
end

section
/-! PROOFS. Arithmetic and logic (spec 41_arith_logic.md): the eight instructions that write a result and then the flag. -/

namespace Sys2Proof.Machine

/-! ### One rule for the family (R90, R102) -/

/-- A two-register instruction with a flag: the result on the old operands in `V[x]` unless `x` is 15, the flag on the old
operands in VF whatever `x` is, and nothing else. -/
theorem aluFlag_effect (result : Byte → Byte → Byte) (flag : Byte → Byte → Bool) (x y : Reg) (s : State) :
    ∃ t, aluFlag result flag x y s = .next t ∧ (x ≠ 15 → t.reg x = result (s.reg x) (s.reg y)) ∧
      t.reg 15 = flagByte (flag (s.reg x) (s.reg y)) ∧ RegsKeptBut [x, 15] s t ∧ KeptBut [.v] s t := by
  refine ⟨_, rfl, ?result, ?flag, s.regsKeptBut_setResult x _ _, s.keptBut_setResult x _ _⟩
  case result => intro hx; rw [State.reg_setResult, if_neg hx, if_pos rfl]
  case flag => rw [State.reg_setResult, if_pos rfl]

/-- The not-borrow of a byte subtraction, as a number. -/
theorem toNat_flagByte_notBorrow (a b : Byte) :
    (flagByte (notBorrow a b)).toNat = if a.toNat ≥ b.toNat then 1 else 0 := by
  simp [notBorrow]

/-- Subtraction of bytes, with the minuend raised by 256. -/
theorem toNat_sub_byte (a b : Byte) : (a - b).toNat = (a.toNat + 256 - b.toNat) % 256 := by
  bv_omega

/-! ### The statements -/

/-- Settles O30: the three bitwise results, with a flag that is always 0. -/
theorem logicClearsTheFlag : Obligations.LogicClearsTheFlag := by
  intro x y s
  refine ⟨?or, ?and, ?xor⟩
  case or =>
    obtain ⟨t, ht, hres, hflag, hkept⟩ := aluFlag_effect (fun a b => a ||| b) (fun _ _ => false) x y s
    exact ⟨t, ht, fun hx b => by rw [hres hx, BitVec.getLsbD_or], hflag, hkept⟩
  case and =>
    obtain ⟨t, ht, hres, hflag, hkept⟩ := aluFlag_effect (fun a b => a &&& b) (fun _ _ => false) x y s
    exact ⟨t, ht, fun hx b => by rw [hres hx, BitVec.getLsbD_and], hflag, hkept⟩
  case xor =>
    obtain ⟨t, ht, hres, hflag, hkept⟩ := aluFlag_effect (fun a b => a ^^^ b) (fun _ _ => false) x y s
    exact ⟨t, ht, fun hx b => by rw [hres hx, BitVec.getLsbD_xor], hflag, hkept⟩

/-- Settles O31: the 8-bit sum, and the carry of the true sum. -/
theorem addSetsTheCarry : Obligations.AddSetsTheCarry := by
  intro x y s
  obtain ⟨t, ht, hres, hflag, hkept⟩ := aluFlag_effect (fun a b => a + b) carryOut x y s
  refine ⟨t, ht, fun hx => ?sum, ?carry, hkept⟩
  case sum => rw [hres hx, BitVec.toNat_add]
  case carry => simp [hflag, carryOut]

/-- Settles O32: the 8-bit difference, and the not-borrow. -/
theorem subSetsNotBorrow : Obligations.SubSetsNotBorrow := by
  intro x y s
  obtain ⟨t, ht, hres, hflag, hkept⟩ := aluFlag_effect (fun a b => a - b) notBorrow x y s
  exact ⟨t, ht, fun hx => by rw [hres hx, toNat_sub_byte], by rw [hflag, toNat_flagByte_notBorrow], hkept⟩

/-- Settles O33: a right shift by one is a halving, and the bit shifted out is the remainder. -/
theorem shrShiftsRegisterY : Obligations.ShrShiftsRegisterY := by
  intro x y s
  obtain ⟨t, ht, hres, hflag, hkept⟩ := aluFlag_effect (fun _ b => b >>> 1) (fun _ b => lowBit b) x y s
  refine ⟨t, ht, fun hx => ?half, ?bit, hkept⟩
  case half => rw [hres hx, BitVec.toNat_ushiftRight, Nat.shiftRight_one]
  case bit =>
    rw [hflag, toNat_flagByte, lowBit, BitVec.getLsbD, Nat.testBit_zero]
    simp only [decide_eq_true_eq]
    split <;> omega

/-- Settles O34: the 8-bit difference and the not-borrow, with the operands exchanged. -/
theorem subnSetsNotBorrow : Obligations.SubnSetsNotBorrow := by
  intro x y s
  obtain ⟨t, ht, hres, hflag, hkept⟩ := aluFlag_effect (fun a b => b - a) (fun a b => notBorrow b a) x y s
  exact ⟨t, ht, fun hx => by rw [hres hx, toNat_sub_byte], by rw [hflag, toNat_flagByte_notBorrow], hkept⟩

/-- Settles O35: a left shift by one is a doubling modulo 256, and the bit shifted out is the highest of eight. -/
theorem shlShiftsRegisterY : Obligations.ShlShiftsRegisterY := by
  intro x y s
  obtain ⟨t, ht, hres, hflag, hkept⟩ := aluFlag_effect (fun _ b => b <<< 1) (fun _ b => highBit b) x y s
  refine ⟨t, ht, fun hx => ?double, ?bit, hkept⟩
  case double => rw [hres hx, BitVec.toNat_shiftLeft, Nat.shiftLeft_eq, Nat.mul_comm]
  case bit =>
    have := (s.reg y).isLt
    rw [hflag, toNat_flagByte, highBit, BitVec.getLsbD, Nat.testBit_eq_decide_div_mod_eq]
    simp only [decide_eq_true_eq]
    split <;> omega

end Sys2Proof.Machine
end

section
/-! PROOFS. Address register and data memory (spec 42_index_memory.md): ADD I, LD F and the block copies. -/

namespace Sys2Proof.Machine

/-! ### ADD I under either reading of the wrap, and LD F -/

/-- Where the reading of the wrap does not matter, ADD I is one write of `I` (R111). -/
theorem addIndex_of_wrap_or_lt {policy : AddIWrap} {x : Reg} {s : State}
    (h : policy = .wrap ∨ s.i.toNat + (s.reg x).toNat < 65536) :
    addIndex policy x s = .next (s.setI (s.i + (s.reg x).setWidth 16)) := by
  refine if_neg ?_
  rintro ⟨rfl, hge⟩
  obtain h | h := h
  · cases h
  · omega

/-- With ADDI_WRAP fault a sum past 65535 stops (R111; 93_implementation_defined.md U6). -/
theorem addIndex_fault_of_ge {x : Reg} {s : State} (h : 65536 ≤ s.i.toNat + (s.reg x).toNat) :
    addIndex .fault x s = .fault (.unspecifiedIndexWrap s) :=
  if_pos ⟨rfl, h⟩

theorem exec_addI (x : Reg) (s : State) : exec (.addI x) s = .next (s.setI (s.i + (s.reg x).setWidth 16)) :=
  addIndex_of_wrap_or_lt (.inl rfl)

theorem exec_ldF (x : Reg) (s : State) :
    exec (.ldF x) s = .next (s.setI (BitVec.ofNat 16 (Config.fontBase + (s.reg x).toNat * Config.glyphBytes))) := rfl

/-! ### The block copies: one bounds check, one copy, one move of `I` (R114, R115) -/

/-- A run read from memory, byte by byte. -/
theorem Memory.getElem?_readList (m : Memory) (a n k : Nat) :
    (m.readList a n)[k]? = if k < n then some (m.read (a + k)) else none := by
  split
  case isTrue hk => rw [List.getElem?_eq_getElem (by simpa using hk), Memory.getElem_readList]
  case isFalse hk => exact List.getElem?_eq_none (by simpa using hk)

/-- A run of registers stored from `I` up is read back at `I + k` (R114). -/
theorem State.read_writeList_firstRegs {s : State} {x : Reg} (hm : s.mem.wf = true) (hx : s.i.toNat + x.val < 0x1000)
    (k : Reg) (hk : k ≤ x) :
    (s.mem.writeList (s.ea 0) (s.firstRegs (x.val + 1))).read (s.ea k.val) = s.reg k := by
  have hlen : k.val < (s.firstRegs (x.val + 1)).length := by rw [State.length_firstRegs]; exact Nat.lt_succ_of_le hk
  rw [State.read_writeList_ea hm (by rw [State.length_firstRegs]; exact hx) k.val hlen,
    State.getElem_firstRegs s _ k.val hlen k.isLt]

/-- The move of `I` past a block that lies in memory does not wrap. -/
theorem State.toNat_bumpI {s : State} {x : Reg} (h : s.i.toNat + x.val < 0x1000) :
    (s.bumpI x).i.toNat = s.i.toNat + x.val + 1 := by
  have hbump : (s.bumpI x).i = s.i + BitVec.ofNat 16 (x.val + 1) := rfl
  rw [hbump, BitVec.toNat_add, BitVec.toNat_ofNat]
  omega

theorem exec_ldMemVx (x : Reg) (s : State) :
    exec (.ldMemVx x) s = if s.i.toNat + x.val < 0x1000 then
      .next ((s.setMem (s.mem.writeList (s.ea 0) (s.firstRegs (x.val + 1)))).bumpI x)
      else .fault (.addressOverflow s) := by
  have hexec : exec (.ldMemVx x) s =
      orRaise ((s.writeBytes (s.ea 0) (s.firstRegs (x.val + 1))).map fun t => t.bumpI x) .addressOverflow s := rfl
  rw [hexec]
  split
  case isTrue hlt =>
    rw [orRaise_eq_next, State.writeBytes_eq_some.mpr ⟨.inr ?_, rfl⟩, Option.map_some]
    rw [State.length_firstRegs]; exact hlt
  case isFalse hge =>
    rw [orRaise_eq_fault, Option.map_eq_none_iff, State.writeBytes_eq_none, State.length_firstRegs]
    exact ⟨⟨Nat.succ_ne_zero _, by simp only [State.ea]; omega⟩, rfl⟩

theorem exec_ldVxMem (x : Reg) (s : State) :
    exec (.ldVxMem x) s = if s.i.toNat + x.val < 0x1000 then
      .next ((s.loadRegs 0 (s.mem.readList (s.ea 0) (x.val + 1))).bumpI x)
      else .fault (.addressOverflow s) := by
  have hexec : exec (.ldVxMem x) s =
      orRaise ((s.readBytes (s.ea 0) (x.val + 1)).map fun bs => (s.loadRegs 0 bs).bumpI x) .addressOverflow s := rfl
  rw [hexec]
  split
  case isTrue hlt => rw [orRaise_eq_next, State.readBytes_eq_some.mpr ⟨.inr hlt, rfl⟩, Option.map_some]
  case isFalse hge =>
    rw [orRaise_eq_fault, Option.map_eq_none_iff, State.readBytes_eq_none]
    exact ⟨⟨Nat.succ_ne_zero _, by simp only [State.ea]; omega⟩, rfl⟩

/-- The registers after a block load: those of the run come from memory, the others stay (R115). -/
theorem State.reg_loadRegs_readList (s : State) (x k : Reg) :
    (s.loadRegs 0 (s.mem.readList (s.ea 0) (x.val + 1))).reg k = if k ≤ x then s.mem.read (s.ea k.val) else s.reg k := by
  rw [State.reg_loadRegs, if_pos (Nat.zero_le _), Nat.sub_zero, Memory.getElem?_readList]
  simp only [Nat.lt_succ_iff, Fin.val_fin_le]
  split <;> rfl

/-! ### The statements -/

/-- Settles O37: the rule is one write of `I`, of the 16-bit sum. -/
theorem addIWrapsWithoutFlag : Obligations.AddIWrapsWithoutFlag := by
  intro x s
  refine ⟨_, exec_addI x s, ?sum, s.keptBut_setI _⟩
  case sum => simp

/-- Settles O38: the rule is one write of `I`, of a product that 16 bits hold. -/
theorem ldFPointsAtTheGlyph : Obligations.LdFPointsAtTheGlyph := by
  intro x s
  refine ⟨_, exec_ldF x s, ?product, s.keptBut_setI _⟩
  case product =>
    have := (s.reg x).isLt
    simp only [State.setI_i, BitVec.toNat_ofNat, Config.fontBase, Config.glyphBytes]
    omega

/-- Settles O40: one bounded store of the registers from `I` up, read back at `I + 0` to `I + x`, then the move of `I`. -/
theorem blockStoreWritesTheRegisters : Obligations.BlockStoreWritesTheRegisters := by
  intro x s
  rw [exec_ldMemVx]
  constructor
  · intro hlt hm
    rw [if_pos hlt]
    refine ⟨_, rfl, s.read_writeList_firstRegs hm hlt, ?others, ?index, ?frame⟩
    case others =>
      intro a ha
      refine State.read_writeList_of_ne_ea fun j hj => ?_
      rw [State.length_firstRegs] at hj
      exact ha ⟨j, by omega⟩ (Nat.le_of_lt_succ hj)
    case index => exact State.toNat_bumpI (s := s.setMem _) hlt
    case frame => exact (s.keptBut_setMem _).trans (State.keptBut_bumpI _ x)
  · intro hge
    exact if_neg (by omega)

/-- Settles O41: one bounded read of the run from `I` up into the registers, then the move of `I`. -/
theorem blockLoadReadsTheRegisters : Obligations.BlockLoadReadsTheRegisters := by
  intro x s
  rw [exec_ldVxMem]
  constructor
  · intro hlt
    rw [if_pos hlt]
    refine ⟨_, rfl, s.reg_loadRegs_readList x, ?index, (s.keptBut_loadRegs 0 _).trans (State.keptBut_bumpI _ x)⟩
    case index =>
      have hi : (s.loadRegs 0 (s.mem.readList (s.ea 0) (x.val + 1))).i = s.i := s.keptBut_loadRegs 0 _ .i (by simp)
      rw [← hi] at hlt ⊢
      exact State.toNat_bumpI hlt
  · intro hge
    exact if_neg (by omega)

/-- Settles O42: with `I` set back, the load reads the very bytes that the store wrote. -/
theorem blockLoadUndoesBlockStore : Obligations.BlockLoadUndoesBlockStore := by
  intro x s other hlt hm
  refine ⟨_, _, (exec_ldMemVx x s).trans (if_pos hlt), (exec_ldVxMem x _).trans (if_pos hlt), ?registers, ?index⟩
  case registers =>
    intro k hk
    exact (State.reg_loadRegs_readList _ x k).trans ((if_pos hk).trans (s.read_writeList_firstRegs hm hlt k hk))
  case index =>
    exact congrArg (· + BitVec.ofNat 16 (x.val + 1)) (State.keptBut_loadRegs _ 0 _ .i (by simp))

end Sys2Proof.Machine
end

section
/-! PROOFS. The display (spec 43_display.md): CLS and the XOR sprite. -/

namespace Sys2Proof.Machine

/-! ### The rules -/

theorem exec_cls (s : State) : exec .cls s = .next (s.setFb Display.blank) := rfl

/-- DRW under either reading of a height of 0: the limiter first, then the height, then the bounds of the whole sprite (R121;
log entry 14). -/
theorem drawInstr_eq (policy : DrwN0) (x y : Reg) (n : Nibble) (s : State) :
    drawInstr policy x y n s =
      if s.drawn then .next s.rewind
      else if policy = .fault ∧ n = 0 then .fault (.unspecifiedSpriteHeight s)
      else if n.toNat = 0 ∨ s.i.toNat + n.toNat ≤ 0x1000 then
        .next (s.drawSprite x y (s.mem.readList (s.ea 0) n.toNat))
      else .fault (.addressOverflow s) := by
  unfold drawInstr
  congr 2
  split
  case isTrue hin => rw [orRaise_eq_next, State.readBytes_eq_some (a := s.ea 0).mpr ⟨hin, rfl⟩, Option.map_some]
  case isFalse hout =>
    rw [orRaise_eq_fault, Option.map_eq_none_iff, State.readBytes_eq_none]
    exact ⟨⟨by omega, by simp only [State.ea]; omega⟩, rfl⟩

/-- DRW at the default reading, in which a height of 0 executes (R121; log entry 6). -/
theorem exec_drw (x y : Reg) (n : Nibble) (s : State) :
    exec (.drw x y n) s =
      if s.drawn then .next s.rewind
      else if n.toNat = 0 ∨ s.i.toNat + n.toNat ≤ 0x1000 then
        .next (s.drawSprite x y (s.mem.readList (s.ea 0) n.toNat))
      else .fault (.addressOverflow s) := by
  have hexec : exec (.drw x y n) s = drawInstr .execute x y n s := rfl
  rw [hexec, drawInstr_eq]
  simp only [reduceCtorEq, false_and, if_false]

/-! ### The sprite in closed form (R122, R123) -/

/-- The bit of a sprite read from `I` up that falls on a pixel is the spec's. -/
theorem State.spriteBit_readList (s : State) (x y : Reg) (n : Nibble) (row col : Nat) :
    spriteBit (s.originCol x) (s.mem.readList (s.ea 0) n.toNat) (s.originRow y) row col =
      s.spriteBitAt x y n row col := by
  unfold spriteBit State.spriteBitAt
  rw [Memory.getElem?_readList]
  by_cases hrow : s.originRow y ≤ row
  · have hlt : row - s.originRow y < n.toNat ↔ row < s.originRow y + n.toNat := by omega
    by_cases hn : row < s.originRow y + n.toNat
    · simp [hrow, hn, hlt, State.ea]
    · simp [hn, hlt]
  · simp [hrow]

/-- Each pixel after a sprite is drawn from `I` up (R123). -/
theorem State.pixel_drawSprite (s : State) (x y : Reg) (n : Nibble) {row col : Nat} (hr : row < 32) (hc : col < 64) :
    Display.pixel (s.drawSprite x y (s.mem.readList (s.ea 0) n.toNat)).fb row col =
      (Display.pixel s.fb row col ^^ s.spriteBitAt x y n row col) := by
  rw [← s.spriteBit_readList]
  exact (blitRows_spec _ _ _ ⟨s.fb, false⟩).1 row col hr hc

/-- VF after a sprite is drawn is the blit's collision. -/
theorem State.reg_flag_drawSprite (s : State) (x y : Reg) (sprite : List Byte) :
    (s.drawSprite x y sprite).reg 15 =
      flagByte (blitRows (s.originCol x) (s.originRow y) sprite ⟨s.fb, false⟩).coll :=
  State.reg_setReg_same _ flagReg _

/-- A collision is a set pixel under a 1 bit of the sprite (R123). -/
theorem State.coll_blitRows_iff (s : State) (x y : Reg) (n : Nibble) :
    (blitRows (s.originCol x) (s.originRow y) (s.mem.readList (s.ea 0) n.toNat) ⟨s.fb, false⟩).coll = true ↔
      ∃ row col, row < 32 ∧ col < 64 ∧ s.spriteBitAt x y n row col = true ∧ Display.pixel s.fb row col = true := by
  rw [(blitRows_spec _ _ _ _).2]
  simp [s.spriteBit_readList]

/-! ### The statements -/

/-- Settles O43: the rule is one write of the display, of the blank one. -/
theorem clsClearsEveryPixel : Obligations.ClsClearsEveryPixel := by
  intro s
  exact ⟨_, exec_cls s, Display.pixel_blank, s.keptBut_setFb _⟩

/-- Settles O44: with the limiter clear and the sprite in memory the rule is the blit, whose loop has the spec's closed
form. -/
theorem drwXorsTheSpriteAndReportsCollision : Obligations.DrwXorsTheSpriteAndReportsCollision := by
  intro x y n s hdrawn hin
  have hrule : exec (.drw x y n) s = .next (s.drawSprite x y (s.mem.readList (s.ea 0) n.toNat)) := by
    rw [exec_drw, hdrawn, if_neg Bool.false_ne_true, if_pos (by omega)]
  refine ⟨_, hrule, fun _ _ => s.pixel_drawSprite x y n, fun hcoll => ?collision, fun hno => ?noCollision, rfl,
    s.regsKeptBut_drawSprite x y _, s.keptBut_drawSprite x y _⟩
  case collision => rw [s.reg_flag_drawSprite, (s.coll_blitRows_iff x y n).mpr hcoll]; rfl
  case noCollision =>
    rw [s.reg_flag_drawSprite, Bool.eq_false_iff.mpr ((s.coll_blitRows_iff x y n).not.mpr hno)]; rfl

/-- Settles O45: the limiter is tested first and rewinds; else a sprite past the address space fails. -/
theorem drwStallsOrOverflows : Obligations.DrwStallsOrOverflows := by
  intro x y n s
  constructor
  · intro hdrawn
    exact ⟨_, (exec_drw x y n s).trans (if_pos hdrawn), rfl, s.keptBut_rewind⟩
  · intro hdrawn hn hout
    rw [exec_drw, hdrawn, if_neg Bool.false_ne_true, if_neg (by omega)]

end Sys2Proof.Machine
end

section
/-! PROOFS. Random, keys (spec 44_timers_keys_random.md): RND, SKP, SKNP and LD Vx,K under either KEYWAIT_MODE. -/

namespace Sys2Proof.Machine

/-! ### The rules -/

theorem exec_rnd (x : Reg) (kk : Byte) (s : State) :
    exec (.rnd x kk) s = .next (s.drawByte.2.setReg x (s.drawByte.1 &&& kk)) := rfl

theorem exec_skp (x : Reg) (s : State) : exec (.skp x) s = skipOnKey true x s := rfl

theorem exec_sknp (x : Reg) (s : State) : exec (.sknp x) s = skipOnKey false x s := rfl

theorem exec_ldVxK (x : Reg) (s : State) : exec (.ldVxK x) s = waitKey false x s := rfl

theorem skipOnKey_eq_next {down : Bool} {x : Reg} {s t : State} :
    skipOnKey down x s = .next t ↔ ∃ k : Key, (s.reg x).toNat = k.val ∧ t = s.skipIf (s.keysDown.get k == down) := by
  unfold skipOnKey
  simp only [orRaise_eq_next, Option.map_eq_some_iff, State.keyIndex_eq_some, eq_comm (a := t)]

theorem skipOnKey_eq_fault {down : Bool} {x : Reg} {s : State} {f : Fault} :
    skipOnKey down x s = .fault f ↔ 16 ≤ (s.reg x).toNat ∧ f = .unspecifiedKeyIndex s := by
  unfold skipOnKey
  rw [orRaise_eq_fault, Option.map_eq_none_iff, State.keyIndex_eq_none]

@[simp] theorem State.noteMode_false (s : State) (m : Mode) : s.noteMode false m = s := rfl

/-- With no edge pending LD Vx,K rewinds (R134). -/
theorem waitKey_of_none {record : Bool} {x : Reg} {s : State} (h : s.keyRel = none) :
    waitKey record x s = .next (s.rewind.noteMode record .waitingKey) := by
  simp [waitKey, h]

/-- With an edge pending LD Vx,K stores the key and consumes the edge (R134). -/
theorem waitKey_of_some {record : Bool} {x : Reg} {s : State} {k : Key} (h : s.keyRel = some k) :
    waitKey record x s = .next (((s.setReg x (BitVec.ofNat 8 k.val)).setKeyRel none).noteMode record .running) := by
  simp [waitKey, h]

/-- A register that a key number is written to holds that number: it fits in a byte. -/
theorem State.toNat_reg_setReg_key (s : State) (x : Reg) (k : Key) :
    ((s.setReg x (BitVec.ofNat 8 k.val)).reg x).toNat = k.val := by
  rw [State.reg_setReg_same, BitVec.toNat_ofNat]
  exact Nat.mod_eq_of_lt (k.isLt.trans (by decide))

/-! ### The statements -/

/-- Settles O46: one draw, which takes the injected byte or the free value, and one write of the masked byte. -/
theorem rndMasksOneFreshByte : Obligations.RndMasksOneFreshByte := by
  intro x kk s
  refine ⟨_, exec_rnd x kk s, ?injected, ?free, ?registers, s.keptBut_drawByte.trans (State.keptBut_setReg _ x _) |>.mono ?sub⟩
  case injected => intro b rest h; simp [State.drawByte, h]
  case free => intro h; simp [State.drawByte, h]
  case registers =>
    intro r hr
    exact (State.regsKeptBut_setReg _ x _ r hr).trans (s.keptBut_drawByte.reg_eq (by simp) r)
  case sub => simp

/-- Settles O47: both rules skip on the level of the key that the register numbers, and stop when it numbers none. -/
theorem skpAndSknpTestTheKey : Obligations.SkpAndSknpTestTheKey := by
  intro x s
  refine ⟨fun k hk => ⟨?down, ?up⟩, fun hbig => ⟨skipOnKey_eq_fault.mpr ⟨hbig, rfl⟩, skipOnKey_eq_fault.mpr ⟨hbig, rfl⟩⟩⟩
  case down => exact ⟨_, skipOnKey_eq_next.mpr ⟨k, hk, rfl⟩, by simp, s.keptBut_skipIf _⟩
  case up => exact ⟨_, skipOnKey_eq_next.mpr ⟨k, hk, rfl⟩, by cases s.keysDown.get k <;> simp, s.keptBut_skipIf _⟩

/-- Settles O49: the two cases of the wait, with KEYWAIT_MODE off. -/
theorem ldVxKWaitsForAReleaseEdge : Obligations.LdVxKWaitsForAReleaseEdge := by
  intro x s
  refine ⟨fun hnone => ⟨_, (exec_ldVxK x s).trans (waitKey_of_none hnone), rfl, s.keptBut_rewind⟩, fun k hk => ?_⟩
  exact ⟨_, (exec_ldVxK x s).trans (waitKey_of_some hk), s.toNat_reg_setReg_key x k, rfl, s.regsKeptBut_setReg x _,
    (s.keptBut_setReg x _).trans (State.keptBut_setKeyRel _ none)⟩

/-- Settles O50: the two cases of the wait, each followed by one write of the mode. -/
theorem keyWaitModeRecordsTheWait : Obligations.KeyWaitModeRecordsTheWait := by
  intro p x s hon
  have hrule : execWith p (.ldVxK x) s = waitKey true x s := congrArg (fun on => waitKey on x s) hon
  rw [hrule]
  refine ⟨fun hnone => ?_, fun k hk => ?_⟩
  · exact ⟨_, waitKey_of_none hnone, rfl, rfl, s.keptBut_rewind.trans (State.keptBut_setMode _ _)⟩
  · exact ⟨_, waitKey_of_some hk, s.toNat_reg_setReg_key x k, rfl, rfl, s.regsKeptBut_setReg x _,
      ((s.keptBut_setReg x _).trans (State.keptBut_setKeyRel _ none)).trans (State.keptBut_setMode _ _)⟩
  
end Sys2Proof.Machine
end

section
/-! PROOFS. All 34 instructions at once: where a parameter matters (spec 00_scope.md section 4), when an instruction
fails (spec 60_exceptions.md section 2) and what it leaves alone (spec 10_state.md section 1). -/

namespace Sys2Proof.Machine

/-! ### The parameters -/

theorem execWith_ldVxK (p : Parameters) (x : Reg) (s : State) :
    execWith p (.ldVxK x) s = waitKey p.keyWaitMode x s := rfl

theorem execWith_drw (p : Parameters) (x y : Reg) (n : Nibble) (s : State) :
    execWith p (.drw x y n) s = drawInstr p.drwN0 x y n s := rfl

theorem execWith_addI (p : Parameters) (x : Reg) (s : State) :
    execWith p (.addI x) s = addIndex p.addIWrap x s := rfl

/-- Settles O60: three instructions take a parameter, and each of their rules asks for it in one case only. -/
theorem parametersReachOnlyTheirInstructions : Obligations.ParametersReachOnlyTheirInstructions := by
  intro p s
  refine ⟨fun i hk hd ha => execWith_eq_exec p hk hd ha s, ?waitOff, ?drawSame, ?drawFault, ?addSame, ?addFault⟩
  case waitOff =>
    intro x hoff
    rw [execWith_ldVxK, hoff, exec_ldVxK]
  case drawSame =>
    intro x y n h
    rw [execWith_drw, exec_drw, drawInstr_eq]
    obtain hexec | hn | hdrawn := h
    · simp only [hexec, reduceCtorEq, false_and, if_false]
    · simp only [hn, and_false, if_false]
    · rw [if_pos hdrawn, if_pos hdrawn]
  case drawFault =>
    intro x y hfault hdrawn
    rw [execWith_drw, drawInstr_eq, hdrawn, if_neg Bool.false_ne_true, if_pos ⟨hfault, rfl⟩]
  case addSame =>
    intro x h
    rw [execWith_addI, exec_addI]
    exact addIndex_of_wrap_or_lt h
  case addFault =>
    intro x hfault hge
    rw [execWith_addI, hfault]
    exact addIndex_fault_of_ge hge

/-! ### Failures -/

/-- A rule that is one test fails exactly when the test does not hold. -/
theorem ite_next_fault_eq_fault {c : Prop} [Decidable c] {t : State} {f g : Fault} :
    (if c then .next t else .fault g : Answer) = .fault f ↔ ¬ c ∧ f = g := by
  split <;> simp [*, eq_comm]

theorem exec_jpV0_eq_fault {nnn : Addr} {s : State} {f : Fault} :
    exec (.jpV0 nnn) s = .fault f ↔ 0x1000 ≤ nnn.toNat + (s.reg 0).toNat ∧ f = .addressOverflow s := by
  rw [exec_jpV0, ite_next_fault_eq_fault, not_lt]

theorem exec_ldB_eq_fault {x : Reg} {s : State} {f : Fault} :
    exec (.ldB x) s = .fault f ↔ 0x1000 ≤ s.i.toNat + 2 ∧ f = .addressOverflow s := by
  rw [exec_ldB, orRaise_eq_fault, State.writeBytes_eq_none, length_bcdDigits]
  exact and_congr_left fun _ => by simp only [State.ea]; omega

theorem exec_ldMemVx_eq_fault {x : Reg} {s : State} {f : Fault} :
    exec (.ldMemVx x) s = .fault f ↔ 0x1000 ≤ s.i.toNat + x.val ∧ f = .addressOverflow s := by
  rw [exec_ldMemVx, ite_next_fault_eq_fault, not_lt]

theorem exec_ldVxMem_eq_fault {x : Reg} {s : State} {f : Fault} :
    exec (.ldVxMem x) s = .fault f ↔ 0x1000 ≤ s.i.toNat + x.val ∧ f = .addressOverflow s := by
  rw [exec_ldVxMem, ite_next_fault_eq_fault, not_lt]

theorem exec_drw_eq_fault {x y : Reg} {n : Nibble} {s : State} {f : Fault} :
    exec (.drw x y n) s = .fault f ↔
      (s.drawn = false ∧ 1 ≤ n.toNat ∧ 0x1000 ≤ s.i.toNat + n.toNat - 1) ∧ f = .addressOverflow s := by
  rw [exec_drw]
  cases s.drawn with
  | true => simp
  | false =>
    rw [if_neg Bool.false_ne_true, ite_next_fault_eq_fault]
    simp only [true_and]
    exact and_congr_left fun _ => by omega

theorem orRaise_ne_refused (r : Option State) (kind : State → Fault) (s : State) (e : Refusal) :
    orRaise r kind s ≠ .refused e := by
  cases r <;> simp [orRaise, raise]

/-- LD Vx,K answers, with an edge pending and without (R134). -/
theorem exec_ldVxK_answers (x : Reg) (s : State) : ∃ t, exec (.ldVxK x) s = .next t := by
  rw [exec_ldVxK]
  cases h : s.keyRel with
  | none => exact ⟨_, waitKey_of_none h⟩
  | some k => exact ⟨_, waitKey_of_some h⟩

/-- No instruction is without a meaning. -/
theorem exec_ne_refused (i : Instr) (s : State) (e : Refusal) : exec i s ≠ .refused e := by
  cases i with
  | ret | call _ | ldB _ | ldMemVx _ | ldVxMem _ | skp _ | sknp _ => exact orRaise_ne_refused _ _ _ _
  | jpV0 nnn => rw [exec_jpV0]; split <;> simp
  | drw x y n => rw [exec_drw]; split_ifs <;> simp
  | addI x => simp [exec_addI]
  | ldVxK x =>
    obtain ⟨t, ht⟩ := exec_ldVxK_answers x s
    simp [ht]
  | _ => exact fun h => nomatch h

/-- Settles O7: the instructions that can fail, each with its own condition; every other rule is a next state. -/
theorem instructionsFailExactlyAsListed : Obligations.InstructionsFailExactlyAsListed := by
  intro i s
  refine ⟨fun f => ?_, exec_ne_refused i s⟩
  cases i with
  | call nnn => simp [exec_call_eq_fault]
  | ret => simp [exec_ret_eq_fault]
  | jpV0 nnn => simp [exec_jpV0_eq_fault]
  | ldB x => simp [exec_ldB_eq_fault]
  | ldMemVx x => simp [exec_ldMemVx_eq_fault]
  | ldVxMem x => simp [exec_ldVxMem_eq_fault]
  | drw x y n => simp [exec_drw_eq_fault, and_assoc]
  | skp x => simp [exec_skp, skipOnKey_eq_fault]
  | sknp x => simp [exec_sknp, skipOnKey_eq_fault]
  | addI x => simp [exec_addI]
  | ldVxK x =>
    obtain ⟨t, ht⟩ := exec_ldVxK_answers x s
    simp [ht]
  | _ => exact iff_of_false (fun h => nomatch h) (by simp)

/-- A rule that fails leaves the state it was given (R145). -/
theorem exec_fault_left {i : Instr} {s : State} {f : Fault} (h : exec i s = .fault f) : f.left = s := by
  obtain ⟨-, -, rfl⟩ | ⟨-, -, rfl⟩ | ⟨-, rfl⟩ | ⟨-, -, rfl⟩ | ⟨-, rfl⟩ | ⟨-, rfl⟩ | ⟨-, rfl⟩ :=
    ((instructionsFailExactlyAsListed i s).1 f).mp h <;> rfl

/-- At any parameters too, a rule that fails leaves the state it was given. -/
theorem execWith_fault_left {p : Parameters} {i : Instr} {s : State} {f : Fault} (h : execWith p i s = .fault f) :
    f.left = s := by
  cases i with
  | ldVxK x =>
    rw [execWith_ldVxK] at h
    cases hk : s.keyRel with
    | none => cases (waitKey_of_none hk).symm.trans h
    | some k => cases (waitKey_of_some hk).symm.trans h
  | drw x y n =>
    rw [execWith_drw, drawInstr_eq] at h
    split_ifs at h <;> cases h <;> rfl
  | addI x =>
    rw [execWith_addI, addIndex] at h
    split at h <;> cases h
    rfl
  | _ => exact exec_fault_left ((execWith_eq_exec p (by simp) (by simp) (by simp) s).symm.trans h)

/-- Settles O8: the fetch fails on the state as it was, and every rule leaves the state with `pc` advanced that it was given. -/
theorem failedStepLeavesStateUnchanged : Obligations.FailedStepLeavesStateUnchanged := by
  intro s f hf
  obtain ⟨hpc, rfl⟩ | ⟨hpc, hleft⟩ := stepOf_fault (fun _ _ _ => exec_fault_left) hf
  · exact ⟨fun _ => ⟨rfl, rfl⟩, fun hlt => absurd hpc (not_le.mpr hlt)⟩
  · exact ⟨fun hge => absurd hge (not_le.mpr hpc), fun _ => hleft⟩

/-! ### Frames -/

/-- The pieces of state outside `mayWrite` are the same after an instruction that completes. -/
theorem keptBut_of_exec {i : Instr} {s t : State} (h : exec i s = .next t) : KeptBut (mayWrite i) s t := by
  cases i with
  | cls => cases h; exact s.keptBut_setFb _
  | ret => exact keptBut_of_exec_ret h
  | call nnn => exact keptBut_of_exec_call h
  | jp nnn => cases h; exact s.keptBut_setPc _
  | jpV0 nnn =>
    rw [exec_jpV0] at h
    split at h <;> cases h
    exact s.keptBut_setPc _
  | seImm _ _ | sneImm _ _ | seReg _ _ | sneReg _ _ => cases h; exact s.keptBut_skipIf _
  | skp x | sknp x =>
    obtain ⟨k, -, rfl⟩ := skipOnKey_eq_next.mp h
    exact s.keptBut_skipIf _
  | ldImm x _ | addImm x _ | ldReg x _ | ldVxDt x => cases h; exact s.keptBut_setReg x _
  | orReg x _ | andReg x _ | xorReg x _ | addReg x _ | sub x _ | shr x _ | subn x _ | shl x _ =>
    cases h; exact s.keptBut_setResult x _ _
  | ldI _ | ldF _ => cases h; exact s.keptBut_setI _
  | addI x => cases (exec_addI x s).symm.trans h; exact s.keptBut_setI _
  | rnd x kk => cases h; exact (s.keptBut_drawByte.trans (State.keptBut_setReg _ x _)).mono (by simp [mayWrite])
  | drw x y n =>
    rw [exec_drw] at h
    split_ifs at h <;> cases h
    · exact s.keptBut_rewind.mono (by simp [mayWrite])
    · exact (s.keptBut_drawSprite x y _).mono (by simp [mayWrite])
  | ldVxK x =>
    rw [exec_ldVxK] at h
    cases hk : s.keyRel with
    | none =>
      cases (waitKey_of_none hk).symm.trans h
      exact s.keptBut_rewind.mono (by simp [mayWrite])
    | some k =>
      cases (waitKey_of_some hk).symm.trans h
      exact ((s.keptBut_setReg x _).trans (State.keptBut_setKeyRel _ none)).mono (by simp [mayWrite])
  | ldDtVx _ => cases h; exact s.keptBut_setDt _
  | ldStVx _ => cases h; exact s.keptBut_setSt _
  | ldB x =>
    rw [exec_ldB, orRaise_eq_next, State.writeBytes_eq_some] at h
    obtain ⟨-, rfl⟩ := h
    exact s.keptBut_setMem _
  | ldMemVx x =>
    rw [exec_ldMemVx] at h
    split at h <;> cases h
    exact (s.keptBut_setMem _).trans (State.keptBut_bumpI _ x)
  | ldVxMem x =>
    rw [exec_ldVxMem] at h
    split at h <;> cases h
    exact (s.keptBut_loadRegs 0 _).trans (State.keptBut_bumpI _ x)

/-- The registers outside `mayWriteReg` are the same after an instruction that completes. -/
theorem reg_eq_of_exec {i : Instr} {s t : State} (h : exec i s = .next t) {r : Reg} (hr : ¬ mayWriteReg r i) :
    t.reg r = s.reg r := by
  cases i with
  | ldImm x _ | addImm x _ | ldReg x _ | ldVxDt x => cases h; exact s.reg_setReg_ne hr _
  | orReg x _ | andReg x _ | xorReg x _ | addReg x _ | sub x _ | shr x _ | subn x _ | shl x _ =>
    cases h; exact s.regsKeptBut_setResult x _ _ r (by simpa [mayWriteReg] using hr)
  | rnd x kk =>
    cases h
    exact (State.reg_setReg_ne _ hr _).trans (s.keptBut_drawByte.reg_eq (by simp) r)
  | drw x y n =>
    rw [exec_drw] at h
    split_ifs at h <;> cases h
    · rfl
    · exact s.regsKeptBut_drawSprite x y _ r (by simpa [mayWriteReg] using hr)
  | ldVxK x =>
    rw [exec_ldVxK] at h
    cases hk : s.keyRel with
    | none => cases (waitKey_of_none hk).symm.trans h; rfl
    | some k => cases (waitKey_of_some hk).symm.trans h; exact s.reg_setReg_ne hr _
  | ldVxMem x =>
    rw [exec_ldVxMem] at h
    split at h <;> cases h
    exact (s.reg_loadRegs_readList x r).trans (if_neg hr)
  | _ => exact (keptBut_of_exec h).reg_eq (by simp [mayWrite]) r

/-- Settles O13: the frame of each instruction's rule, by piece of state and by register. -/
theorem instructionsWriteOnlyTheirOwnState : Obligations.InstructionsWriteOnlyTheirOwnState :=
  fun _ _ _ h => ⟨keptBut_of_exec h, fun _ hr => reg_eq_of_exec h hr⟩

end Sys2Proof.Machine
end

section
/-! PROOFS. The run mode and the wait states (spec 60_exceptions.md section 9). -/

namespace Sys2Proof.Machine

/-! ### An answer with another run mode in its state -/

/-- A fault with the run mode of the state it leaves replaced. -/
def Fault.withMode (m : Mode) : Fault → Fault
  | .invalidInstruction s => .invalidInstruction (s.setMode m)
  | .stackOverflow s => .stackOverflow (s.setMode m)
  | .stackUnderflow s => .stackUnderflow (s.setMode m)
  | .addressOverflow s => .addressOverflow (s.setMode m)
  | .unspecifiedKeyIndex s => .unspecifiedKeyIndex (s.setMode m)
  | .unspecifiedSpriteHeight s => .unspecifiedSpriteHeight (s.setMode m)
  | .unspecifiedIndexWrap s => .unspecifiedIndexWrap (s.setMode m)

@[simp] theorem Fault.withMode_left (m : Mode) (f : Fault) : (f.withMode m).left = f.left.setMode m := by
  cases f <;> rfl

@[simp] theorem Fault.withMode_code (m : Mode) (f : Fault) : (f.withMode m).code = f.code := by
  cases f <;> rfl

/-- An answer with the run mode of its state replaced. -/
def Answer.withMode (m : Mode) : Answer → Answer
  | .next t => .next (t.setMode m)
  | .fault f => .fault (f.withMode m)
  | .refused r => .refused r

/-! ### The operations do not read the run mode -/

section ReplacedMode

variable (s : State) (m : Mode)

theorem State.popPc_setMode : (s.setMode m).popPc = s.popPc.map (·.setMode m) := by
  rcases h : s.sp with ⟨_ | k, hk⟩
  · simp [State.popPc, h]
  · simp [State.popPc, h]; rfl

theorem State.pushPc_setMode : (s.setMode m).pushPc = s.pushPc.map (·.setMode m) := by
  by_cases h : s.sp.val < 24
  · simp [State.pushPc, h]; rfl
  · simp [State.pushPc, h]

theorem State.writeBytes_setMode (a : Nat) (bs : List Byte) :
    (s.setMode m).writeBytes a bs = (s.writeBytes a bs).map (·.setMode m) := by
  rw [State.writeBytes, State.writeBytes, apply_ite (Option.map _)]
  rfl

theorem State.skipIf_setMode (c : Bool) : (s.setMode m).skipIf c = (s.skipIf c).setMode m := by
  cases c <;> rfl

theorem State.drawByte_setMode :
    (s.setMode m).drawByte = (s.drawByte.1, s.drawByte.2.setMode m) := by
  simp only [State.drawByte_eq, State.setMode_rndIn]
  cases s.rndIn <;> rfl

theorem State.loadRegs_setMode (k : Nat) (bs : List Byte) :
    (s.setMode m).loadRegs k bs = (s.loadRegs k bs).setMode m := by
  induction bs generalizing s k with
  | nil => rfl
  | cons b bs ih =>
    rw [State.loadRegs, State.loadRegs, ← ih]
    split <;> rfl

theorem orRaise_setMode {kind : State → Fault} (r : Option State) (hkind : kind (s.setMode m) = (kind s).withMode m) :
    orRaise (r.map (·.setMode m)) kind (s.setMode m) = Answer.withMode m (orRaise r kind s) := by
  cases r with
  | none => exact congrArg Host.Outcome.fault hkind
  | some t => rfl

theorem waitKey_setMode (x : Reg) : waitKey false x (s.setMode m) = Answer.withMode m (waitKey false x s) := by
  cases h : s.keyRel with
  | none => rw [waitKey_of_none h, waitKey_of_none (s := s.setMode m) h]; rfl
  | some k => rw [waitKey_of_some h, waitKey_of_some (s := s.setMode m) h]; rfl

theorem skipOnKey_setMode (down : Bool) (x : Reg) :
    skipOnKey down x (s.setMode m) = Answer.withMode m (skipOnKey down x s) := by
  have hindex : (s.setMode m).keyIndex x = s.keyIndex x := rfl
  unfold skipOnKey
  rw [hindex]
  cases s.keyIndex x with
  | none => rfl
  | some k => exact congrArg Host.Outcome.next (s.skipIf_setMode m _)

end ReplacedMode

/-- With another run mode an instruction's rule answers the same, that mode in place (R158). -/
theorem exec_setMode (i : Instr) (s : State) (m : Mode) : exec i (s.setMode m) = Answer.withMode m (exec i s) := by
  cases i with
  | ret =>
    rw [exec_ret, exec_ret, State.popPc_setMode]
    exact orRaise_setMode s m _ rfl
  | call nnn =>
    rw [exec_call, exec_call, State.pushPc_setMode]
    cases s.pushPc <;> rfl
  | jpV0 nnn => rw [exec_jpV0, exec_jpV0, apply_ite (Answer.withMode m)]; rfl
  | seImm _ _ | sneImm _ _ | seReg _ _ | sneReg _ _ => exact congrArg Host.Outcome.next (s.skipIf_setMode m _)
  | skp x | sknp x => exact skipOnKey_setMode s m _ x
  | rnd x kk => rw [exec_rnd, exec_rnd, State.drawByte_setMode]; rfl
  | drw x y n => rw [exec_drw, exec_drw, apply_ite (Answer.withMode m), apply_ite (Answer.withMode m)]; rfl
  | ldVxK x => exact waitKey_setMode s m x
  | addI x => rw [exec_addI, exec_addI]; rfl
  | ldB x =>
    rw [exec_ldB, exec_ldB, State.writeBytes_setMode]
    exact orRaise_setMode s m _ rfl
  | ldMemVx x => rw [exec_ldMemVx, exec_ldMemVx, apply_ite (Answer.withMode m)]; rfl
  | ldVxMem x => rw [exec_ldVxMem, exec_ldVxMem, State.loadRegs_setMode, apply_ite (Answer.withMode m)]; rfl
  | _ => rfl

/-- With another run mode a Step answers the same, that mode in place (R158). -/
theorem step_setMode (s : State) (m : Mode) : step (s.setMode m) = Answer.withMode m (step s) := by
  have hfetch : (s.setMode m).fetchWord = s.fetchWord := rfl
  unfold step
  cases hw : s.fetchWord with
  | none => simp only [stepOf, hfetch, hw]; rfl
  | some w =>
    cases hd : decodeWord w with
    | ok i =>
      rw [stepOf_of_decode_ok hw hd, stepOf_of_decode_ok (hfetch.trans hw) hd]
      exact exec_setMode i s.advance m
    | error e => rw [stepOf_of_decode_error hw hd, stepOf_of_decode_error (hfetch.trans hw) hd]; rfl

/-- With KEYWAIT_MODE off no rule writes the run mode. -/
theorem mode_notMem_mayWrite (i : Instr) : .mode ∉ mayWrite i := by
  cases i <;> simp [mayWrite]

/-! ### A stall takes the advance back -/

@[simp] theorem State.rewind_advance (s : State) : s.advance.rewind = s := by
  simp [State.rewind, State.advance, State.setPc]

/-! ### The statements -/

/-- Settles O14: the Step's answer from the other mode is its answer with that mode in place, and no rule writes the mode. -/
theorem stepIgnoresTheRunMode : Obligations.StepIgnoresTheRunMode := by
  intro s m
  refine ⟨fun t ht => ⟨?kept, ?same⟩, fun f hf => ⟨f.withMode m, ?fails, by simp, by simp⟩⟩
  case kept =>
    obtain ⟨-, i, hi⟩ := stepOf_next ht
    exact keptBut_of_exec hi .mode (mode_notMem_mayWrite i)
  case same => rw [step_setMode, ht]; rfl
  case fails => rw [step_setMode, hf]; rfl

/-- Settles O15: both rules rewind, which takes the advance of the Step back. -/
theorem waitStatesMakeNoProgress : Obligations.WaitStatesMakeNoProgress := by
  rintro s (⟨⟨x, hnext⟩, hnone⟩ | ⟨⟨x, y, n, hnext⟩, hdrawn⟩)
  · rw [step_of_nextInstr hnext, exec_ldVxK, waitKey_of_none (s := s.advance) hnone, State.noteMode_false, State.rewind_advance]
  · rw [step_of_nextInstr hnext, exec_drw, State.advance_drawn, if_pos hdrawn, State.rewind_advance]

end Sys2Proof.Machine
end

section
/-! PROOFS. The host's events and sessions (spec 60_exceptions.md sections 4 to 8, 70_reset_and_hazards.md sections 2
and 5): the loads, the events that are no Step, going on after a failure, and the end of a run. -/

namespace Sys2Proof.Machine

/-! ### ReleaseKey, LoadFont and LoadROM -/

/-- ReleaseKey is one write of the pending edge (R154). -/
theorem State.keptBut_releaseKey (s : State) (k : Key) : KeptBut [.keyRel] s (s.releaseKey k) := s.keptBut_setKeyRel _

/-- LoadFont is one store of memory (R171). -/
theorem State.keptBut_loadFont (s : State) (font : Vector Byte Config.fontBytes) : KeptBut [.mem] s (s.loadFont font) :=
  s.keptBut_setMem _

/-- LoadROM answers exactly for an image that fits, with its bytes stored and the mode set (R172). -/
theorem State.loadRom_eq_some {s t : State} {image : List Byte} :
    s.loadRom image = some t ↔ image.length ≤ 3584 ∧
      t = (s.setMem (s.mem.writeList Config.progBase image)).setMode .running := by
  simp [State.loadRom, imageWf, eq_comm]

theorem State.loadRom_eq_none {s : State} {image : List Byte} : s.loadRom image = none ↔ 3584 < image.length := by
  simp [State.loadRom, imageWf]

theorem State.keptBut_loadRom {s t : State} {image : List Byte} (h : s.loadRom image = some t) :
    KeptBut [.mem, .mode] s t := by
  obtain ⟨-, rfl⟩ := State.loadRom_eq_some.mp h
  exact (s.keptBut_setMem _).trans (State.keptBut_setMode _ _)

/-- An event that is no Step writes memory, the mode, the keys, the counters or the limiter, and nothing else of the core. -/
theorem Session.keptBut_event {h h' : Session} {e : HostEvent} {p : Parameters} {r : Reply} (hne : e ≠ .step)
    (he : h.event e p = .next (h', r)) :
    KeptBut [.mem, .mode, .keysDown, .keyRel, .dt, .st, .drawn] h.core h'.core := by
  obtain ⟨font, -, hc⟩ | ⟨image, -, hc⟩ | ⟨k, b, -, hc⟩ | ⟨k, -, hc⟩ | ⟨-, hc⟩ | ⟨-, rfl⟩ := Session.event_cases hne he
  · exact hc ▸ (h.core.keptBut_loadFont font).mono (by simp)
  · exact (State.keptBut_loadRom hc).mono (by simp)
  · exact hc ▸ (h.core.keptBut_setKey k b).mono (by simp)
  · exact hc ▸ (h.core.keptBut_releaseKey k).mono (by simp)
  · exact hc ▸ h.core.keptBut_newFrame.mono (by simp)
  · exact fun f _ => by cases f <;> simp [Kept]

/-! ### A Step that fails in a session -/

/-- A failure with a code is one that a host may go on from (R149). -/
theorem Fault.resume_of_code {f : Fault} {n : Nat} (h : f.code = some n) : f.resume = some f.left := by
  cases f with
  | unspecifiedKeyIndex _ | unspecifiedSpriteHeight _ | unspecifiedIndexWrap _ => cases h
  | _ => rfl

/-- The Step event after a failure with a code: it is reported and recorded, and the core is what the failure left. -/
theorem Session.event_step_of_fault {h : Session} {f : Fault} {n : Nat} (hf : step h.core = .fault f)
    (hcode : f.code = some n) :
    h.event .step = .next ({ h with core := f.left, stepped := true, failed := true }, .failed f) := by
  simp [Session.event, Session.stepEvent, hf, Fault.resume_of_code hcode]

/-! ### The statements about single events -/

/-- Settles O54: ReleaseKey is one write of the pending edge. -/
theorem releaseKeyMakesAnEdgePending : Obligations.ReleaseKeyMakesAnEdgePending :=
  fun s k => ⟨rfl, s.keptBut_releaseKey k⟩

/-- Settles O55: each load is one store of a run that lies in memory, so its bytes read back and the others stay. -/
theorem loadsWriteTheirBytes : Obligations.LoadsWriteTheirBytes := by
  intro s hm
  refine ⟨fun font => ⟨fun k => ?fontByte, fun a ha => ?fontOthers, s.keptBut_loadFont font⟩,
    fun image hlen => ⟨_, State.loadRom_eq_some.mpr ⟨hlen, rfl⟩, fun k hk => ?romByte, fun a ha => ?romOthers, rfl,
      State.keptBut_loadRom (State.loadRom_eq_some.mpr ⟨hlen, rfl⟩)⟩,
    fun image hlong => State.loadRom_eq_none.mpr hlong⟩
  case fontByte =>
    have hread := Memory.read_writeList_inside (a := 0) (bs := font.toList) hm (by simp) k.val (by simp)
    rw [Nat.zero_add, Vector.getElem_toList] at hread
    exact hread
  case fontOthers => exact Memory.read_writeList_outside (.inr (by simpa using ha))
  case romByte => exact Memory.read_writeList_inside hm (by simp only [Config.progBase]; omega) k hk
  case romOthers => exact Memory.read_writeList_outside ha

/-- Settles O56: none of the six pieces of state is among those that an event other than a Step writes. -/
theorem onlyAStepMovesThePc : Obligations.OnlyAStepMovesThePc := by
  intro h h' e r hne he
  have kept := Session.keptBut_event hne he
  exact ⟨kept .pc (by simp), kept .i (by simp), kept .v (by simp), kept .stack (by simp), kept .sp (by simp),
    kept .fb (by simp)⟩

/-- Settles O57: the event goes on from what the failure left, which for a fetch failure is the state that failed. -/
theorem hostGoesOnAfterAFailure : Obligations.HostGoesOnAfterAFailure := by
  intro h f n hf hcode
  refine ⟨_, Session.event_step_of_fault hf hcode, rfl, rfl, fun hpc => ?_⟩
  obtain ⟨-, rfl⟩ | ⟨hlt, -⟩ := stepOf_fault (fun _ _ _ => exec_fault_left) hf
  · exact hf
  · exact absurd hpc (not_le.mpr hlt)

/-! ### The end of a run, read along the events (R179) -/

/-- What `EndOfRunIsReachedByASuccessfulStep` says of a session: the events begin with some events and a successful Step that
reaches it, its word at `pc` is a jump to itself, and no successful Step before reached such a word. -/
def Session.IsFirstEnd (start : Session) (events : List HostEvent) (h : Session) : Prop :=
  ∃ before rest g, events = before ++ .step :: rest ∧ start.run before = .next g ∧
    g.event .step = .next (h, .done) ∧ h.core.jumpsToItself = true ∧
    ∀ earlier later g' h', before = earlier ++ .step :: later → start.run earlier = .next g' →
      g'.event .step = .next (h', .done) → h'.core.jumpsToItself = false

/-- An event ends a run when it is a Step that succeeds and reaches a jump to itself. -/
def EndsRun (e : HostEvent) (r : Reply) (k : Session) : Prop := e = .step ∧ r = .done ∧ k.core.jumpsToItself = true

theorem Session.run_cons_eq_next {start g : Session} {e : HostEvent} {rest : List HostEvent} :
    start.run (e :: rest) = .next g ↔ ∃ k r, start.event e = .next (k, r) ∧ k.run rest = .next g := by
  rw [Session.run]
  cases start.event e with
  | next a => obtain ⟨k, r⟩ := a; simp
  | fault f => simp
  | refused f => simp

/-- The search for the end of a run looks at the first event, and goes on when that does not end it. -/
theorem Session.endOfRun_cons_eq_some {start h : Session} {e : HostEvent} {rest : List HostEvent} :
    start.endOfRun (e :: rest) = some h ↔ ∃ k r, start.event e = .next (k, r) ∧
      (EndsRun e r k ∧ k = h ∨ ¬ EndsRun e r k ∧ k.endOfRun rest = some h) := by
  rw [Session.endOfRun]
  cases start.event e with
  | next a =>
    obtain ⟨k, r⟩ := a
    by_cases hend : EndsRun e r k
    · simp [hend, if_pos (show e = .step ∧ r = .done ∧ k.core.jumpsToItself = true from hend)]
    · simp [hend, if_neg (show ¬ (e = .step ∧ r = .done ∧ k.core.jumpsToItself = true) from hend)]
  | fault f => simp
  | refused f => simp

/-- The first end of a run is found at the first event, or among the others when that does not end the run. -/
theorem Session.isFirstEnd_cons {start h : Session} {e : HostEvent} {rest : List HostEvent} :
    start.IsFirstEnd (e :: rest) h ↔ ∃ k r, start.event e = .next (k, r) ∧
      (EndsRun e r k ∧ k = h ∨ ¬ EndsRun e r k ∧ k.IsFirstEnd rest h) := by
  constructor
  · rintro ⟨before, after, g, hevents, hrun, hstep, hjump, hno⟩
    cases before with
    | nil =>
      cases hevents
      cases hrun
      exact ⟨h, .done, hstep, .inl ⟨⟨rfl, rfl, hjump⟩, rfl⟩⟩
    | cons b before =>
      cases hevents
      obtain ⟨k, r, hk, hrun'⟩ := Session.run_cons_eq_next.mp hrun
      refine ⟨k, r, hk, .inr ⟨?notEnd, before, after, g, rfl, hrun', hstep, hjump,
        fun earlier later g' h' hsplit hrun'' => ?no⟩⟩
      case notEnd =>
        rintro ⟨rfl, rfl, hend⟩
        exact Bool.false_ne_true ((hno [] before start k rfl rfl hk).symm.trans hend)
      case no =>
        exact hno (e :: earlier) later g' h' (congrArg (e :: ·) hsplit) (Session.run_cons_eq_next.mpr ⟨k, r, hk, hrun''⟩)
  · rintro ⟨k, r, hk, ⟨⟨rfl, rfl, hjump⟩, rfl⟩ | ⟨hnot, before, after, g, rfl, hrun, hstep, hjump, hno⟩⟩
    · exact ⟨[], rest, start, rfl, rfl, hk, hjump, fun earlier later g' h' hsplit => by simp at hsplit⟩
    · refine ⟨e :: before, after, g, rfl, Session.run_cons_eq_next.mpr ⟨k, r, hk, hrun⟩, hstep, hjump, ?_⟩
      intro earlier later g' h' hsplit hrun' hstep'
      cases earlier with
      | nil =>
        cases hsplit
        cases hrun'
        cases hk.symm.trans hstep'
        exact Bool.eq_false_iff.mpr fun hjump' => hnot ⟨rfl, rfl, hjump'⟩
      | cons b earlier =>
        cases hsplit
        obtain ⟨k', r', hk', hrun''⟩ := Session.run_cons_eq_next.mp hrun'
        cases hk.symm.trans hk'
        exact hno earlier later g' h' rfl hrun'' hstep'

/-- Settles O58: the search and the description go through the events in the same way. -/
theorem endOfRunIsReachedByASuccessfulStep : Obligations.EndOfRunIsReachedByASuccessfulStep := by
  intro start events h
  change start.endOfRun events = some h ↔ start.IsFirstEnd events h
  induction events generalizing start with
  | nil => simp [Session.endOfRun, Session.IsFirstEnd]
  | cons e rest ih => simp only [Session.endOfRun_cons_eq_some, Session.isFirstEnd_cons, ih]

/-! ### A jump to itself -/

/-- Below 0x1000 the word `0x1000 | pc` is the word of a jump to `pc` (R179). -/
theorem encode_jp_self {pc : Word} (h : pc.toNat < 0x1000) : encode (.jp (pc.setWidth 12)) = 0x1000 ||| pc := by
  apply BitVec.eq_of_toNat_eq
  have hor : 0x1000 ||| pc.toNat = 0x1000 + pc.toNat := (Nat.two_pow_add_eq_or_of_lt (i := 12) h 1).symm
  rw [encode, toNat_packNnn, BitVec.toNat_setWidth, BitVec.toNat_or, Nat.mod_eq_of_lt h]
  exact hor.symm

/-- The address of that jump, zero-extended, is `pc`. -/
theorem addrWord_setWidth {pc : Word} (h : pc.toNat < 0x1000) : addrWord (pc.setWidth 12) = pc := by
  apply BitVec.eq_of_toNat_eq
  rw [toNat_addrWord, BitVec.toNat_setWidth, Nat.mod_eq_of_lt h]

/-- A Step at a jump to itself runs the jump, which sets `pc` back. -/
theorem step_of_jumpsToItself {s : State} (h : s.jumpsToItself = true) : step s = .next s := by
  simp only [State.jumpsToItself, Bool.and_eq_true, decide_eq_true_eq, beq_iff_eq] at h
  obtain ⟨hpc, hfetch⟩ := h
  have hdecode : decodeWord (0x1000 ||| s.pc) = .ok (.jp (s.pc.setWidth 12)) := by
    rw [← encode_jp_self hpc]
    exact decodeWord_encode _
  rw [step, stepOf_of_decode_ok hfetch hdecode, exec_jp, addrWord_setWidth hpc]
  rfl

/-- Settles O16: a jump to itself sets `pc` back, and the end of a run is at one. -/
theorem endOfRunIsAFixedPoint : Obligations.EndOfRunIsAFixedPoint := by
  refine ⟨fun s => step_of_jumpsToItself, fun start events h hend => ?_⟩
  obtain ⟨-, -, -, -, -, -, hjump, -⟩ := (endOfRunIsReachedByASuccessfulStep start events h).mp hend
  exact step_of_jumpsToItself hjump

end Sys2Proof.Machine
end

section
/-! PROOFS. What every Step and every session keeps (spec 10_state.md section 9, 70_reset_and_hazards.md section 3): the
invariant, and the draw limiter between two frames. -/

namespace Sys2Proof.Machine

/-! ### Reset -/

/-- Settles O9: the table's values are those of the fields, and the blank display has no pixel set. -/
theorem resetValuesAreThoseOfTheTable : Obligations.ResetValuesAreThoseOfTheTable := by
  refine ⟨?registers, rfl, rfl, ?stack, rfl, rfl, rfl, fun _ => rfl, rfl, fun row col _ _ => Display.pixel_blank row col,
    ?keys, rfl, rfl⟩
  case registers => exact fun r => Vector.getElem_replicate r.isLt
  case stack => exact fun k => Vector.getElem_replicate k.isLt
  case keys => exact fun k => Vector.getElem_replicate k.isLt

/-- Settles O10: `pc` is 0x200, no address is held, and no byte is listed. -/
theorem resetMeetsTheInvariant : Obligations.ResetMeetsTheInvariant where
  pc_le := by decide
  held_le := fun k hk => absurd hk (Nat.not_lt_zero k.val)
  mem_wf := rfl

/-! ### The invariant through one instruction -/

/-- What the state meets that an instruction's rule is given: the invariant, with `pc` the end of a word that was fetched
(R60). -/
structure Advanced (s : State) : Prop where
  inv : Inv s
  two_le_pc : 2 ≤ s.pc.toNat
  pc_le : s.pc.toNat ≤ 0x1000

theorem Inv.advanced {s : State} (h : Inv s) (hpc : s.pc.toNat + 1 < 0x1000) : Advanced s.advance := by
  have hadd : s.advance.pc.toNat = s.pc.toNat + 2 := by
    rw [State.advance_pc, BitVec.toNat_add]
    exact Nat.mod_eq_of_lt (by simp; omega)
  exact ⟨⟨by omega, h.held_le, h.mem_wf⟩, by omega, by omega⟩

/-- The invariant does not speak of the run mode. -/
theorem Inv.setMode {s : State} (h : Inv s) (m : Mode) : Inv (s.setMode m) := ⟨h.pc_le, h.held_le, h.mem_wf⟩

/-- A taken or untaken skip keeps the bound of `pc`. -/
theorem Advanced.skipIf_pc_le {s : State} (h : Advanced s) (c : Bool) : (s.skipIf c).pc.toNat ≤ 0x1002 := by
  have := h.pc_le
  rw [State.skipIf_pc]
  split <;> bv_omega

/-- A stall keeps the bound of `pc`: the word was fetched, so there are two bytes to go back. -/
theorem Advanced.rewind_pc_le {s : State} (h : Advanced s) : s.rewind.pc.toNat ≤ 0x1002 := by
  have := h.pc_le
  have := h.two_le_pc
  rw [State.rewind_pc]
  bv_omega

/-- Every rule keeps the bound of `pc`: it jumps below 0x1000, returns to a held address, skips, stalls, or does not write
`pc`. -/
theorem pc_le_of_exec {i : Instr} {s t : State} (hs : Advanced s) (h : exec i s = .next t) : t.pc.toNat ≤ 0x1002 := by
  cases i with
  | jp nnn =>
    cases h
    rw [State.setPc_pc, toNat_addrWord]
    omega
  | call nnn =>
    obtain ⟨-, rfl⟩ := exec_call_eq_next.mp h
    rw [State.setPc_pc, toNat_addrWord]
    omega
  | jpV0 nnn =>
    rw [exec_jpV0] at h
    split at h <;> cases h
    rw [State.setPc_pc, BitVec.toNat_ofNat]
    omega
  | ret =>
    obtain ⟨k, hk, hsp, rfl⟩ := exec_ret_eq_next.mp h
    have hheld := hs.inv.held_le ⟨k, hk⟩ (show k < s.sp.val by omega)
    rw [State.setPc_pc]
    omega
  | seImm _ _ | sneImm _ _ | seReg _ _ | sneReg _ _ => cases h; exact hs.skipIf_pc_le _
  | skp x | sknp x =>
    obtain ⟨k, -, rfl⟩ := skipOnKey_eq_next.mp h
    exact hs.skipIf_pc_le _
  | drw x y n =>
    rw [exec_drw] at h
    split_ifs at h <;> cases h
    · exact hs.rewind_pc_le
    · exact hs.inv.pc_le
  | ldVxK x =>
    rw [exec_ldVxK] at h
    cases hk : s.keyRel with
    | none => cases (waitKey_of_none hk).symm.trans h; exact hs.rewind_pc_le
    | some k => cases (waitKey_of_some hk).symm.trans h; exact hs.inv.pc_le
  | _ =>
    have hpc : t.pc = s.pc := keptBut_of_exec h .pc (by simp [mayWrite])
    exact hpc ▸ hs.inv.pc_le

/-- Every rule keeps the bound of the held addresses: CALL adds `pc`, RET takes one away, no other writes the stack. -/
theorem held_le_of_exec {i : Instr} {s t : State} (hs : Advanced s) (h : exec i s = .next t)
    (k : Fin Config.stackDepth) (hk : k.val < t.sp.val) : (t.stack.get k).toNat ≤ 0x1000 := by
  cases i with
  | call nnn =>
    obtain ⟨hsp, rfl⟩ := exec_call_eq_next.mp h
    have hlt : k.val < s.sp.val + 1 := hk
    simp only [State.setPc_stack, State.setSp_stack, State.setStack_stack, Vector.get_eq_getElem, Vector.getElem_set]
    split
    case isTrue => exact hs.pc_le
    case isFalse hne => exact hs.inv.held_le k (by omega)
  | ret =>
    obtain ⟨j, hj, hsp, rfl⟩ := exec_ret_eq_next.mp h
    have hlt : k.val < j := hk
    exact hs.inv.held_le k (by omega)
  | _ =>
    have hstack : t.stack = s.stack := keptBut_of_exec h .stack (by simp [mayWrite])
    have hsp : t.sp = s.sp := keptBut_of_exec h .sp (by simp [mayWrite])
    rw [hsp] at hk
    exact hstack ▸ hs.inv.held_le k hk

theorem State.skipIf_mem (s : State) (c : Bool) : (s.skipIf c).mem = s.mem := by
  rw [State.skipIf_eq, State.setPc_mem]

theorem State.drawByte_mem (s : State) : s.drawByte.2.mem = s.mem := by
  rw [State.drawByte_state, State.setDraws_mem, State.setRndIn_mem]

theorem State.loadRegs_mem (s : State) (k : Nat) (bs : List Byte) : (s.loadRegs k bs).mem = s.mem := by
  obtain ⟨v, hv⟩ := s.loadRegs_eq k bs
  rw [hv]

/-- A rule leaves memory as it is or stores one run of bytes that lies in memory. -/
theorem mem_of_exec {i : Instr} {s t : State} (h : exec i s = .next t) :
    t.mem = s.mem ∨ ∃ bs, s.ea 0 + bs.length ≤ 0x1000 ∧ t.mem = s.mem.writeList (s.ea 0) bs := by
  cases i with
  | ldB x =>
    rw [exec_ldB, orRaise_eq_next, State.writeBytes_eq_some] at h
    obtain ⟨hempty | hin, rfl⟩ := h
    · cases hempty
    · exact .inr ⟨_, hin, rfl⟩
  | ldMemVx x =>
    rw [exec_ldMemVx] at h
    split at h <;> cases h
    next hlt => exact .inr ⟨s.firstRegs (x.val + 1), by rw [State.length_firstRegs]; exact hlt, rfl⟩
  | ldVxMem x =>
    rw [exec_ldVxMem] at h
    split at h <;> cases h
    exact .inl (s.loadRegs_mem 0 _)
  | call nnn =>
    obtain ⟨-, rfl⟩ := exec_call_eq_next.mp h
    exact .inl rfl
  | ret =>
    obtain ⟨k, -, -, rfl⟩ := exec_ret_eq_next.mp h
    exact .inl rfl
  | jpV0 nnn =>
    rw [exec_jpV0] at h
    split at h <;> cases h
    exact .inl rfl
  | seImm _ _ | sneImm _ _ | seReg _ _ | sneReg _ _ => cases h; exact .inl (s.skipIf_mem _)
  | skp x | sknp x =>
    obtain ⟨k, -, rfl⟩ := skipOnKey_eq_next.mp h
    exact .inl (s.skipIf_mem _)
  | drw x y n =>
    rw [exec_drw] at h
    split_ifs at h <;> cases h <;> exact .inl rfl
  | ldVxK x =>
    rw [exec_ldVxK] at h
    cases hk : s.keyRel with
    | none => cases (waitKey_of_none hk).symm.trans h; exact .inl rfl
    | some k => cases (waitKey_of_some hk).symm.trans h; exact .inl rfl
  | rnd x kk => cases h; exact .inl s.drawByte_mem
  | addI x => cases (exec_addI x s).symm.trans h; exact .inl rfl
  | _ => cases h; exact .inl rfl

/-- Every rule keeps the invariant on the state it is given. -/
theorem inv_of_exec {i : Instr} {s t : State} (hs : Advanced s) (h : exec i s = .next t) : Inv t where
  pc_le := pc_le_of_exec hs h
  held_le := held_le_of_exec hs h
  mem_wf := by
    obtain hmem | ⟨bs, hin, hmem⟩ := mem_of_exec h <;> rw [hmem]
    · exact hs.inv.mem_wf
    · exact Memory.wf_writeList hs.inv.mem_wf hin

/-- Settles O11: a Step that answers has run a rule on the advanced state. -/
theorem stepKeepsTheInvariant : Obligations.StepKeepsTheInvariant := by
  intro s t hs ht
  obtain ⟨hpc, i, hi⟩ := stepOf_next ht
  exact inv_of_exec (hs.advanced hpc) hi

/-! ### The invariant through every event at any parameters -/

/-- What a rule answers at any parameters, it answers at the defaults, but for the run mode. -/
theorem execWith_next {p : Parameters} {i : Instr} {s t : State} (h : execWith p i s = .next t) :
    ∃ u m, exec i s = .next u ∧ t = u.setMode m := by
  cases i with
  | ldVxK x =>
    rw [execWith_ldVxK] at h
    cases hk : s.keyRel with
    | none =>
      cases (waitKey_of_none hk).symm.trans h
      exact ⟨_, (s.rewind.noteMode p.keyWaitMode .waitingKey).mode, (exec_ldVxK x s).trans (waitKey_of_none hk), by
        cases p.keyWaitMode <;> rfl⟩
    | some k =>
      cases (waitKey_of_some hk).symm.trans h
      exact ⟨_, (s.noteMode p.keyWaitMode .running).mode, (exec_ldVxK x s).trans (waitKey_of_some hk), by
        cases p.keyWaitMode <;> rfl⟩
  | drw x y n =>
    rw [execWith_drw, drawInstr_eq] at h
    split_ifs at h with hdrawn hheight hin <;> cases h
    · exact ⟨s.rewind, s.mode, (exec_drw x y n s).trans (if_pos hdrawn), rfl⟩
    · exact ⟨_, s.mode, (exec_drw x y n s).trans ((if_neg hdrawn).trans (if_pos hin)), rfl⟩
  | addI x =>
    rw [execWith_addI, addIndex] at h
    split at h <;> cases h
    exact ⟨_, s.mode, exec_addI x s, rfl⟩
  | _ => exact ⟨t, t.mode, (execWith_eq_exec p (by simp) (by simp) (by simp) s).symm.trans h, rfl⟩

/-- A Step at any parameters keeps the invariant. -/
theorem Inv.of_stepWith_next {p : Parameters} {s t : State} (hs : Inv s) (ht : stepWith p s = .next t) : Inv t := by
  obtain ⟨hpc, i, hi⟩ := stepOf_next ht
  obtain ⟨u, m, hu, rfl⟩ := execWith_next hi
  exact (inv_of_exec (hs.advanced hpc) hu).setMode m

/-- A failed Step at any parameters leaves a state that meets the invariant. -/
theorem Inv.of_stepWith_fault {p : Parameters} {s : State} {f : Fault} (hs : Inv s) (hf : stepWith p s = .fault f) :
    Inv f.left := by
  obtain ⟨-, rfl⟩ | ⟨hpc, hleft⟩ := stepOf_fault (fun _ _ _ => execWith_fault_left) hf
  · exact hs
  · rw [hleft]
    exact (hs.advanced hpc).inv

/-- Every event keeps the invariant of the core. -/
theorem Inv.of_event {p : Parameters} {h h' : Session} {e : HostEvent} {r : Reply} (hs : Inv h.core)
    (he : h.event e p = .next (h', r)) : Inv h'.core := by
  by_cases hstep : e = .step
  · subst hstep
    obtain ⟨s, hs', rfl, -⟩ | ⟨f, hf, -, rfl, -⟩ := Session.stepEvent_cases he
    · exact hs.of_stepWith_next hs'
    · exact hs.of_stepWith_fault hf
  · have kept := Session.keptBut_event hstep he
    have hpc : h'.core.pc = h.core.pc := kept .pc (by simp)
    have hstack : h'.core.stack = h.core.stack := kept .stack (by simp)
    have hsp : h'.core.sp = h.core.sp := kept .sp (by simp)
    refine ⟨hpc ▸ hs.pc_le, by rw [hstack, hsp]; exact hs.held_le, ?_⟩
    obtain ⟨font, -, hc⟩ | ⟨image, -, hc⟩ | ⟨k, b, -, hc⟩ | ⟨k, -, hc⟩ | ⟨-, hc⟩ | ⟨-, rfl⟩ :=
      Session.event_cases hstep he
    · rw [hc]
      exact Memory.wf_writeList hs.mem_wf (by simp)
    · obtain ⟨hlen, hcore⟩ := State.loadRom_eq_some.mp hc
      rw [hcore]
      exact Memory.wf_writeList hs.mem_wf (by simp only [Config.progBase]; omega)
    · rw [hc]; exact hs.mem_wf
    · rw [hc]; exact hs.mem_wf
    · rw [hc]; exact hs.mem_wf
    · exact hs.mem_wf

/-- What each of some events keeps, a run of them keeps. -/
theorem Session.run_keeps {p : Parameters} {P : Session → Prop} {events : List HostEvent}
    (hkeep : ∀ e ∈ events, ∀ h h' r, P h → h.event e p = .next (h', r) → P h') {h h' : Session} (hP : P h)
    (hrun : h.run events p = .next h') : P h' := by
  induction events generalizing h with
  | nil =>
    cases hrun
    exact hP
  | cons e rest ih =>
    rw [Session.run] at hrun
    split at hrun
    · next k r hk =>
      exact ih (fun e' he' => hkeep e' (List.mem_cons_of_mem e he')) (hkeep e List.mem_cons_self h k r hP hk) hrun
    · cases hrun
    · cases hrun

/-- Settles O12: each event keeps the invariant, the fresh session meets it, and a run is events one after the other. -/
theorem everySessionMeetsTheInvariant : Obligations.EverySessionMeetsTheInvariant := by
  refine ⟨fun p h h' e r => Inv.of_event, resetMeetsTheInvariant, fun p events h hrun => ?_⟩
  exact Session.run_keeps (P := fun k => Inv k.core) (fun _ _ _ _ _ hk => hk.of_event)
    (h := Session.fresh) resetMeetsTheInvariant hrun

/-! ### The draw limiter between two frames -/

/-- The limiter is set and the display shows no pixel that another display does not. -/
structure HeldAt (d : Display) (s : State) : Prop where
  drawn : s.drawn = true
  within : ∀ row col, Display.pixel s.fb row col = true → Display.pixel d row col = true

/-- A change that writes neither the limiter nor the display keeps what they hold. -/
theorem HeldAt.of_kept {d : Display} {s t : State} {may : List Field} (hs : HeldAt d s) (h : KeptBut may s t)
    (hdrawn : .drawn ∉ may) (hfb : .fb ∉ may) : HeldAt d t where
  drawn := by
    have hd : t.drawn = s.drawn := h .drawn hdrawn
    rw [hd]
    exact hs.drawn
  within := by
    have hd : t.fb = s.fb := h .fb hfb
    rw [hd]
    exact hs.within

/-- With the limiter set, CLS clears the display, DRW rewinds, and no other rule writes the limiter or the display. -/
theorem HeldAt.of_exec {d : Display} {i : Instr} {s t : State} (hs : HeldAt d s) (h : exec i s = .next t) :
    HeldAt d t := by
  cases i with
  | cls =>
    cases h
    exact ⟨hs.drawn, fun row col hset => Bool.noConfusion ((Display.pixel_blank row col).symm.trans hset)⟩
  | drw x y n =>
    rw [exec_drw, if_pos hs.drawn] at h
    cases h
    exact hs.of_kept s.keptBut_rewind (by simp) (by simp)
  | _ => exact hs.of_kept (keptBut_of_exec h) (by simp [mayWrite]) (by simp [mayWrite])

/-- With the limiter set, every event but NewFrame leaves it set and sets no pixel. -/
theorem HeldAt.of_event {d : Display} {h h' : Session} {e : HostEvent} {r : Reply} (hs : HeldAt d h.core)
    (hne : e ≠ .newFrame) (he : h.event e = .next (h', r)) : HeldAt d h'.core := by
  by_cases hstep : e = .step
  · subst hstep
    have hadv : HeldAt d h.core.advance := hs.of_kept (h.core.keptBut_setPc _) (by simp) (by simp)
    obtain ⟨s, hs', rfl, -⟩ | ⟨f, hf, -, rfl, -⟩ := Session.stepEvent_cases he
    · rw [stepWith_default] at hs'
      obtain ⟨-, i, hi⟩ := stepOf_next hs'
      exact hadv.of_exec hi
    · obtain ⟨-, rfl⟩ | ⟨-, hleft⟩ := stepOf_fault (fun _ _ _ => execWith_fault_left) hf
      · exact hs
      · exact hleft ▸ hadv
  · obtain ⟨font, -, hc⟩ | ⟨image, -, hc⟩ | ⟨k, b, -, hc⟩ | ⟨k, -, hc⟩ | ⟨hframe, -⟩ | ⟨-, rfl⟩ :=
      Session.event_cases hstep he
    · exact hc ▸ hs.of_kept (h.core.keptBut_loadFont font) (by simp) (by simp)
    · exact hs.of_kept (State.keptBut_loadRom hc) (by simp) (by simp)
    · exact hc ▸ hs.of_kept (h.core.keptBut_setKey k b) (by simp) (by simp)
    · exact hc ▸ hs.of_kept (h.core.keptBut_releaseKey k) (by simp) (by simp)
    · exact absurd hframe hne
    · exact hs

/-- Settles O17: each event but NewFrame keeps the limiter set and sets no pixel, so a run of such events does. -/
theorem atMostOneDrawBetweenFrames : Obligations.AtMostOneDrawBetweenFrames := by
  intro events h h' hdrawn hno hrun
  have hstart : HeldAt h.core.fb h.core := ⟨hdrawn, fun _ _ => id⟩
  have hend : HeldAt h.core.fb h'.core := Session.run_keeps (P := fun k => HeldAt h.core.fb k.core)
    (fun e he _ _ _ hk => hk.of_event fun hframe => hno (hframe ▸ he)) hstart hrun
  exact ⟨hend.drawn, hend.within⟩

end Sys2Proof.Machine
end
